-- ==== Sys2Proof/Word.lean ====
section
/-! DEFINITION. The fixed-width values of the block and the plainest arithmetic over naturals (00_scope.md R6, R7). -/

namespace Sys2Proof

/-- A 32-bit host register or storage word (R22, R30). -/
abbrev Word := BitVec 32

/-- A byte of BMEM (R50). -/
abbrev Byte := BitVec 8

/-- A 64-bit command word (R70). -/
abbrev Cmd := BitVec 64

/-- A buffer's contents: a finite sequence of bits, index 0 first (R8). -/
abbrev Bits := List Bool

/-- `ceil_div(a, b)` of R7, used only with `b > 0`. -/
def ceilDiv (a b : Nat) : Nat := (a + b - 1) / b

end Sys2Proof
end

