-- ==== Sys2Proof/Config.lean ====
section
/-! DEFINITION. The implementation parameters of the block (00_scope.md R4) and the one free value of the spec, the
bytes of BMEM that nothing has written since reset (93_implementation_defined.md I4). -/

namespace Sys2Proof

/-- The parameters of R4. `MAXBITS` is derived, see `Config.maxBits`. -/
structure Config where
  nbuf : Nat
  maxWords : Nat
  bmemBytes : Nat
  deriving DecidableEq, Repr

/-- The bit capacity of one slot, `32 · MAXWORDS` (R4). -/
def Config.maxBits (c : Config) : Nat := 32 * c.maxWords

/-- The reference configuration (R4, last column). -/
def Config.reference : Config := { nbuf := 8, maxWords := 2048, bmemBytes := 8192 }

/-- The legal ranges of the parameters (R4, third column). -/
abbrev Config.Legal (c : Config) : Prop :=
  (1 ≤ c.nbuf ∧ c.nbuf ≤ 16) ∧
  (1 ≤ c.maxWords ∧ c.maxWords ≤ 2 ^ 27 - 1) ∧
  (1 ≤ c.bmemBytes ∧ c.bmemBytes ≤ 2 ^ 32 - 1)

/-- The free value of I4: `bmemDraw epoch a` is what byte `a` of BMEM holds from the reset numbered `epoch` until something
writes it. It has no body, so nothing can be proved about it but that it is one fixed byte (log entry 4). -/
opaque Config.bmemDraw : Nat → Nat → Byte

end Sys2Proof
end

