-- ==== Sys2Proof/Syntax.lean ====
section
/-! DEFINITION. The commands of PBB-1, one constructor for each row of spec/opcode_table.json (30_encoding.md R77), with the
operands of each command's form at the widths of R71. The four pseudo-instructions of R82 stand at the end: they are other
names for commands. -/

namespace Sys2Proof

/-- The A or B field: names a slot when its value is below `NBUF` (R75). -/
abbrev SlotField := BitVec 4

/-- The P field, the Hamming parameter (R72). -/
abbrev ParamField := BitVec 5

/-- The IMM field, read as a natural number, never sign-extended (R73). -/
abbrev ImmField := BitVec 32

/-- The 27 commands of the opcode map (R77), operands in the assembler's order. -/
inductive Instr where
  | new (a : SlotField)
  | wcap (a : SlotField) (bits : ImmField)
  | fill (a : SlotField) (n : ImmField) (v : Bool)
  | fromb (a : SlotField) (nbytes : ImmField)
  | tob (a : SlotField)
  | clone (a b : SlotField)
  | len (a : SlotField)
  | get (a : SlotField) (i : ImmField)
  | set (a : SlotField) (i : ImmField) (v : Bool)
  | push (a : SlotField) (v : Bool)
  | pop (a : SlotField)
  | append (a b : SlotField)
  | split (a b : SlotField) (cut : ImmField)
  | trunc (a : SlotField) (length : ImmField)
  | grow (a : SlotField) (n : ImmField) (v : Bool)
  | union (a b : SlotField)
  | inter (a b : SlotField)
  | diff (a b : SlotField)
  | all (a : SlotField)
  | none (a : SlotField)
  | any (a : SlotField)
  | iter (a : SlotField)
  | inext
  | iprev
  | henc (a b : SlotField) (p : ParamField)
  | hdec (a b : SlotField) (p : ParamField)
  | hsyn (a : SlotField) (p : ParamField) (k : ImmField)
  deriving DecidableEq, Repr

/-- The assembler's pseudo-instructions (R82). -/
inductive Pseudo where
  | clr (a : SlotField)
  | mov (a b : SlotField)
  | bset (a : SlotField) (i : ImmField)
  | bclr (a : SlotField) (i : ImmField)
  deriving DecidableEq, Repr

/-- The one command each pseudo-instruction expands to (R82). -/
def Pseudo.expand : Pseudo → Instr
  | .clr a => .new a
  | .mov a b => .clone a b
  | .bset a i => .set a i true
  | .bclr a i => .set a i false

end Sys2Proof
end

