-- ==== Sys2Proof/WellFormed.lean ====
section
/-! DEFINITION. The decode checks of 30_encoding.md R78 that look at a command's operands alone: check 4 (slot fields below
`NBUF`), check 5 (`p ≥ 2`) and check 6 (`a ≠ b`). Checks 1 to 3 are about words and stand in Decode.lean; check 7 reads the
iterator and stands in the meanings of INEXT and IPREV. -/

namespace Sys2Proof

/-- The slot fields a command uses (R76). -/
def Instr.slotFields : Instr → List SlotField
  | .new a => [a]
  | .wcap a _ => [a]
  | .fill a _ _ => [a]
  | .fromb a _ => [a]
  | .tob a => [a]
  | .clone a b => [a, b]
  | .len a => [a]
  | .get a _ => [a]
  | .set a _ _ => [a]
  | .push a _ => [a]
  | .pop a => [a]
  | .append a b => [a, b]
  | .split a b _ => [a, b]
  | .trunc a _ => [a]
  | .grow a _ _ => [a]
  | .union a b => [a, b]
  | .inter a b => [a, b]
  | .diff a b => [a, b]
  | .all a => [a]
  | .none a => [a]
  | .any a => [a]
  | .iter a => [a]
  | .inext => []
  | .iprev => []
  | .henc a b _ => [a, b]
  | .hdec a b _ => [a, b]
  | .hsyn a _ _ => [a]

/-- R78 check 4: every slot field the command uses is below `NBUF`. -/
def Instr.slotsExist (nbuf : Nat) (i : Instr) : Bool :=
  i.slotFields.all fun s => decide (s.toNat < nbuf)

/-- R78 check 5: for HENC, HDEC and HSYN, `p ≥ 2`. -/
def Instr.paramLegal : Instr → Bool
  | .henc _ _ p => decide (2 ≤ p.toNat)
  | .hdec _ _ p => decide (2 ≤ p.toNat)
  | .hsyn _ p _ => decide (2 ≤ p.toNat)
  | .new _ | .wcap _ _ | .fill _ _ _ | .fromb _ _ | .tob _ | .clone _ _ | .len _ => true
  | .get _ _ | .set _ _ _ | .push _ _ | .pop _ => true
  | .append _ _ | .split _ _ _ | .trunc _ _ | .grow _ _ _ => true
  | .union _ _ | .inter _ _ | .diff _ _ | .all _ | .none _ | .any _ => true
  | .iter _ | .inext | .iprev => true

/-- R78 check 6: for APPEND and SPLIT, `a ≠ b`. -/
def Instr.slotsDistinct : Instr → Bool
  | .append a b => decide (a ≠ b)
  | .split a b _ => decide (a ≠ b)
  | .new _ | .wcap _ _ | .fill _ _ _ | .fromb _ _ | .tob _ | .clone _ _ | .len _ => true
  | .get _ _ | .set _ _ _ | .push _ _ | .pop _ => true
  | .trunc _ _ | .grow _ _ _ => true
  | .union _ _ | .inter _ _ | .diff _ _ | .all _ | .none _ | .any _ => true
  | .iter _ | .inext | .iprev => true
  | .henc _ _ _ | .hdec _ _ _ | .hsyn _ _ _ => true

/-- The operands pass checks 4, 5 and 6 of R78 on a block with `nbuf` slots. -/
def Instr.wellFormed (nbuf : Nat) (i : Instr) : Bool :=
  i.slotsExist nbuf && i.paramLegal && i.slotsDistinct

end Sys2Proof
end

