-- ==== Sys2Proof/Decode.lean ====
section
/-! DEFINITION. The command format (30_encoding.md R70, R71), the operand forms (R76), the opcode map (R77), the decoder
(R78), total over all 2^64 words and rejecting by name, and after it the encoder (R83). -/

namespace Sys2Proof

/-- The seven fields of a command word (R71). -/
structure Fields where
  imm : ImmField := 0
  rsv : BitVec 10 := 0
  p : ParamField := 0
  v : Bool := false
  b : SlotField := 0
  a : SlotField := 0
  opc : BitVec 8
  deriving DecidableEq, Repr

/-- The fields at the bit places of R71. -/
def Fields.ofWord (w : Cmd) : Fields :=
  { imm := w.extractLsb' 32 32
    rsv := w.extractLsb' 22 10
    p := w.extractLsb' 17 5
    v := w.getLsbD 16
    b := w.extractLsb' 12 4
    a := w.extractLsb' 8 4
    opc := w.extractLsb' 0 8 }

/-- The word with these fields, bit 63 on the left (R71). -/
def Fields.toWord (f : Fields) : Cmd :=
  f.imm ++ (f.rsv ++ (f.p ++ (BitVec.ofBool f.v ++ (f.b ++ (f.a ++ f.opc)))))

/-- The nine operand forms (R76). -/
inductive Form where
  | A | AI | AVI | AV | AB | ABI | Z | ABP | API
  deriving DecidableEq, Repr

/-- Form uses the A field (R76). -/
def Form.usesA : Form → Bool
  | .A | .AI | .AVI | .AV | .AB | .ABI | .ABP | .API => true
  | .Z => false

/-- Form uses the B field (R76). -/
def Form.usesB : Form → Bool
  | .AB | .ABI | .ABP => true
  | .A | .AI | .AVI | .AV | .Z | .API => false

/-- Form uses the V field (R76). -/
def Form.usesV : Form → Bool
  | .AVI | .AV => true
  | .A | .AI | .AB | .ABI | .Z | .ABP | .API => false

/-- Form uses the P field (R76). -/
def Form.usesP : Form → Bool
  | .ABP | .API => true
  | .A | .AI | .AVI | .AV | .AB | .ABI | .Z => false

/-- Form uses the IMM field (R76). -/
def Form.usesI : Form → Bool
  | .AI | .AVI | .ABI | .API => true
  | .A | .AV | .AB | .Z | .ABP => false

/-- R78 check 3: every field the form does not use is 0. -/
def Form.unusedZero (m : Form) (f : Fields) : Bool :=
  (m.usesA || f.a == 0) && (m.usesB || f.b == 0) && (m.usesV || !f.v) && (m.usesP || f.p == 0) && (m.usesI || f.imm == 0)

/-- One row of the opcode map (R77): the opcode, the mnemonic, the form, and the command the fields name. -/
structure OpcodeRow where
  opc : BitVec 8
  mnemonic : String
  form : Form
  build : Fields → Instr

/-- The opcode map (R77), rows in the order of the table. -/
def opcodeTable : List OpcodeRow :=
  [ ⟨0x01, "NEW", .A, fun f => .new f.a⟩,
    ⟨0x02, "WCAP", .AI, fun f => .wcap f.a f.imm⟩,
    ⟨0x03, "FILL", .AVI, fun f => .fill f.a f.imm f.v⟩,
    ⟨0x04, "FROMB", .AI, fun f => .fromb f.a f.imm⟩,
    ⟨0x05, "TOB", .A, fun f => .tob f.a⟩,
    ⟨0x06, "CLONE", .AB, fun f => .clone f.a f.b⟩,
    ⟨0x07, "LEN", .A, fun f => .len f.a⟩,
    ⟨0x10, "GET", .AI, fun f => .get f.a f.imm⟩,
    ⟨0x11, "SET", .AVI, fun f => .set f.a f.imm f.v⟩,
    ⟨0x12, "PUSH", .AV, fun f => .push f.a f.v⟩,
    ⟨0x13, "POP", .A, fun f => .pop f.a⟩,
    ⟨0x20, "APPEND", .AB, fun f => .append f.a f.b⟩,
    ⟨0x21, "SPLIT", .ABI, fun f => .split f.a f.b f.imm⟩,
    ⟨0x22, "TRUNC", .AI, fun f => .trunc f.a f.imm⟩,
    ⟨0x23, "GROW", .AVI, fun f => .grow f.a f.imm f.v⟩,
    ⟨0x30, "UNION", .AB, fun f => .union f.a f.b⟩,
    ⟨0x31, "INTER", .AB, fun f => .inter f.a f.b⟩,
    ⟨0x32, "DIFF", .AB, fun f => .diff f.a f.b⟩,
    ⟨0x34, "ALL", .A, fun f => .all f.a⟩,
    ⟨0x35, "NONE", .A, fun f => .none f.a⟩,
    ⟨0x36, "ANY", .A, fun f => .any f.a⟩,
    ⟨0x40, "ITER", .A, fun f => .iter f.a⟩,
    ⟨0x41, "INEXT", .Z, fun _ => .inext⟩,
    ⟨0x42, "IPREV", .Z, fun _ => .iprev⟩,
    ⟨0x50, "HENC", .ABP, fun f => .henc f.a f.b f.p⟩,
    ⟨0x51, "HDEC", .ABP, fun f => .hdec f.a f.b f.p⟩,
    ⟨0x52, "HSYN", .API, fun f => .hsyn f.a f.p f.imm⟩ ]

/-- The row an opcode is assigned to, if any (R77; every other opcode is reserved, R79). -/
def opcodeRow? (opc : BitVec 8) : Option OpcodeRow :=
  opcodeTable.find? fun r => r.opc == opc

/-- Why the decoder rejects a word: the checks 1 to 6 of R78, by name. Each of them raises IllegalCommand (R301). -/
inductive DecodeError where
  /-- Check 1: OPC is none of the 27 assigned values. -/
  | unassignedOpcode
  /-- Check 2: RSV is not 0. -/
  | reservedNonzero
  /-- Check 3: a field the form does not use is not 0. -/
  | unusedNonzero
  /-- Check 4: a slot field is not below `NBUF`. -/
  | noSuchSlot
  /-- Check 5: `p < 2` on a Hamming command. -/
  | paramTooSmall
  /-- Check 6: `a = b` on APPEND or SPLIT. -/
  | sameSlot
  deriving DecidableEq, Repr

/-- Checks 4, 5 and 6 of R78 in their order. -/
def checkOperands (nbuf : Nat) (i : Instr) : Except DecodeError Instr :=
  if i.slotsExist nbuf = false then .error .noSuchSlot
  else if i.paramLegal = false then .error .paramTooSmall
  else if i.slotsDistinct = false then .error .sameSlot
  else .ok i

/-- The decoder of a block with `nbuf` slots: checks 1 to 6 of R78 in their order. -/
def decode (nbuf : Nat) (w : Cmd) : Except DecodeError Instr :=
  match opcodeRow? (Fields.ofWord w).opc with
  | none => .error .unassignedOpcode
  | some r =>
    if (Fields.ofWord w).rsv ≠ 0 then .error .reservedNonzero
    else if r.form.unusedZero (Fields.ofWord w) = false then .error .unusedNonzero
    else checkOperands nbuf (r.build (Fields.ofWord w))

/-- The fields of a command: each operand in the field its form names, every other field 0 (R83). -/
def Instr.fields : Instr → Fields
  | .new a => { opc := 0x01, a }
  | .wcap a imm => { opc := 0x02, a, imm }
  | .fill a imm v => { opc := 0x03, a, imm, v }
  | .fromb a imm => { opc := 0x04, a, imm }
  | .tob a => { opc := 0x05, a }
  | .clone a b => { opc := 0x06, a, b }
  | .len a => { opc := 0x07, a }
  | .get a imm => { opc := 0x10, a, imm }
  | .set a imm v => { opc := 0x11, a, imm, v }
  | .push a v => { opc := 0x12, a, v }
  | .pop a => { opc := 0x13, a }
  | .append a b => { opc := 0x20, a, b }
  | .split a b imm => { opc := 0x21, a, b, imm }
  | .trunc a imm => { opc := 0x22, a, imm }
  | .grow a imm v => { opc := 0x23, a, imm, v }
  | .union a b => { opc := 0x30, a, b }
  | .inter a b => { opc := 0x31, a, b }
  | .diff a b => { opc := 0x32, a, b }
  | .all a => { opc := 0x34, a }
  | .none a => { opc := 0x35, a }
  | .any a => { opc := 0x36, a }
  | .iter a => { opc := 0x40, a }
  | .inext => { opc := 0x41 }
  | .iprev => { opc := 0x42 }
  | .henc a b p => { opc := 0x50, a, b, p }
  | .hdec a b p => { opc := 0x51, a, b, p }
  | .hsyn a p imm => { opc := 0x52, a, p, imm }

/-- The 64-bit word of a command (R71, R83). -/
def encode (i : Instr) : Cmd := i.fields.toWord

/-- The host's reading of one row of spec/opcode_table.json: the command the decoder of the reference configuration reads from
the word whose bits are `w`. A command is one 64-bit value (R70), handed over whole (R53), so the table's numbering of bits
is the word's own. -/
def decodeTableWord (nbits w : Nat) : Option Instr :=
  (decode Config.reference.nbuf (BitVec.ofNat 64 (w % 2 ^ nbits))).toOption

end Sys2Proof
end

