-- ==== Sys2Proof/Machine/State.lean ====
section
/-! DEFINITION. The state of the block as plain data (10_state.md R20 to R36), the host's interactions (70_reset_and_hazards.md
R354), the two ways a step can stop, and the state after reset (R36). -/

namespace Sys2Proof.Machine

/-- The exceptions a command can raise (60_exceptions.md R300, codes 1 to 5). -/
inductive Exc where
  | illegalCommand
  | boundsError
  | capacityOverflow
  | lengthMismatch
  | portRangeError
  deriving DecidableEq, Repr

/-- The iterator unit (10_state.md R33). -/
structure Iter where
  itv : Bool
  itslot : SlotField
  itf : Word
  itb : Word
  deriving DecidableEq, Repr

/-- The iterator that is bound to no slot: its reset value (R33), and what invalidation leaves (45_iteration.md R193). -/
def Iter.unbound : Iter := { itv := false, itslot := 0, itf := 0, itb := 0 }

/-- BMEM (20_memory.md R50): the bytes written since reset, as (address, byte) pairs with strictly rising addresses. A byte that
is not listed has not been written since reset (log entry 5). -/
abbrev Memory := List Host.Cell

/-- The host's interactions with the block (R354); there are no others. -/
inductive HostEvent where
  | submit (cmd : Cmd)
  | readReg (n : BitVec 8)
  | writeReg (n : BitVec 8) (v : Word)
  | bmemRead (a : Nat)
  | bmemWrite (a : Nat) (v : Byte)
  | reset
  deriving DecidableEq, Repr

/-- What the host gets back from an interaction (R354, fourth column). -/
inductive HostReply where
  | nothing
  | completion
  | reg (v : Word)
  | byte (v : Byte)
  deriving DecidableEq, Repr

/-- The whole state. The last three fields are the model's own (log entries 1, 2 and 4): the host's interactions still to come,
what the last one gave back, and which draw of BMEM's unspecified bytes is in force. -/
structure State where
  /-- CFG_NBUF, CFG_MAXWORDS and CFG_BMEM_BYTES (R32): the parameters of R4, never written. -/
  cfg : Config
  /-- `buf[s]` for `s` from 0 to `NBUF − 1` (R20, R24). -/
  slots : List Bits
  /-- RES (R26). -/
  res : Word
  /-- NOELEM, STATUS bit 1 (R26, R29). -/
  noelem : Bool
  /-- CMDCOUNT (R28). -/
  cmdCount : Word
  /-- FAULT, STATUS bit 0 (R29). -/
  fault : Bool
  /-- CAUSE, STATUS bits 15:8 (R29). -/
  cause : BitVec 8
  /-- ERRIDX (R31). -/
  errIdx : Word
  /-- ERRCMD_LO (R31). -/
  errCmdLo : Word
  /-- ERRCMD_HI (R31). -/
  errCmdHi : Word
  /-- ITV, ITSLOT, ITF and ITB (R33). -/
  iter : Iter
  /-- BMEM (R50). -/
  bmem : Memory
  /-- The number of resets since power-on: names the draw of BMEM's unspecified bytes (I4). -/
  bmemEpoch : Nat
  /-- The host's interactions still to come, oldest first. -/
  inputs : List HostEvent
  /-- What the host got back from its last interaction. -/
  reply : HostReply
  deriving DecidableEq, Repr

/-- The ways the machine can stop with a fault: none. Every exception of the block is a next state, the faulted one
(60_exceptions.md R310, R311), in which the host goes on reading, writing BMEM and resetting (log entry 15). -/
inductive Fault
  deriving DecidableEq, Repr

/-- The ways a step can be refused. -/
inductive Refusal where
  /-- Raised by `exec` alone, for a command that has no meaning yet. Safe: nothing can be proved past it. -/
  | notModelled (mnemonic : String)
  /-- Raised by a host access to BMEM at an address that is not below `BMEM_BYTES`: the spec gives it no move
  (20_memory.md R57, R64, 93_implementation_defined.md I7). Safe: such runs are outside every claim. -/
  | hostAddressOutsideBmem
  deriving DecidableEq, Repr

/-- The state just after the reset numbered `epoch` of a block with the parameters `c` (10_state.md R36). BMEM lists nothing: each of
its bytes is the free draw of that reset. -/
def State.afterReset (c : Config) (epoch : Nat) : State :=
  { cfg := c
    slots := List.replicate c.nbuf []
    res := 0
    noelem := false
    cmdCount := 0
    fault := false
    cause := 0
    errIdx := 0
    errCmdLo := 0
    errCmdHi := 0
    iter := Iter.unbound
    bmem := []
    bmemEpoch := epoch
    inputs := []
    reply := .nothing }

/-- The reference block (R4) just after power-on, with no host interaction to come. DESIGN CHOICE: the values of `bmemEpoch`,
`inputs` and `reply`, which are the model's own fields (log entries 1, 2, 4 and 11). -/
def State.reset : State := State.afterReset Config.reference 0

end Sys2Proof.Machine
end

