-- ==== Sys2Proof/Machine/Flags.lean ====
section
/-! DEFINITION. The result register RES with the flag NOELEM (10_state.md R26, R27), the STATUS word (R29) and the output
`fault_o` (60_exceptions.md R314). The block has no other flag (R27). -/

namespace Sys2Proof.Machine

/-- `RES <- n mod 2^32 ; NOELEM <- 0` (R26). Every number a command writes is below 2^32. -/
def State.withRes (s : State) (n : Nat) : State := { s with res := BitVec.ofNat 32 n, noelem := false }

/-- `RES <- 1` or `0` for a truth value or a bit, `NOELEM <- 0` (R26). -/
def State.withResBit (s : State) (b : Bool) : State := s.withRes b.toNat

/-- `RES <- 0 ; NOELEM <- 1`: the command found no element (R26). -/
def State.withNoElement (s : State) : State := { s with res := 0, noelem := true }

/-- STATUS (R29): reserved 31:16, CAUSE 15:8, reserved 7:3, ITV 2, NOELEM 1, FAULT 0. -/
def State.status (s : State) : Word :=
  (0 : BitVec 16) ++ (s.cause ++ ((0 : BitVec 5) ++
    (BitVec.ofBool s.iter.itv ++ (BitVec.ofBool s.noelem ++ BitVec.ofBool s.fault))))

/-- The output signal `fault_o`, a level equal to STATUS.FAULT (60_exceptions.md R314). -/
def State.faultO (s : State) : Bool := s.fault

end Sys2Proof.Machine
end

