-- ==== Sys2Proof/Machine/Operands.lean ====
section
/-! DEFINITION. Reading the operands of a command (30_encoding.md R72 to R76), the sequence primitives of 00_scope.md R8, and
the byte-to-bit mapping of 20_memory.md R52. -/

namespace Sys2Proof.Machine

/-- `buf[s]` (00_scope.md R9): the bits slot `a` holds. A field at or above `NBUF` names no slot; no command that is executed has
one (R75), and the read is then the empty sequence (log entry 9). -/
def State.buf (s : State) (a : SlotField) : Bits := s.slots.getD a.toNat []

/-- `len[s]` (10_state.md R21, R24). -/
def State.len (s : State) (a : SlotField) : Nat := (s.buf a).length

/-- Element `i` of a sequence (R8), used only below its length; past it the read is 0, as the storage there is (R23). -/
def bitAt (x : Bits) (i : Nat) : Bool := x.getD i false

/-- `slice(x, a, b)` (R8). -/
def slice (x : Bits) (a b : Nat) : Bits := (x.take b).drop a

/-- The first `n` consecutive slices of length `k`: `slice(x, g·k, g·k + k)` for `g` in `0..n−1`. -/
def chunks : Nat → Nat → Bits → List Bits
  | 0, _, _ => []
  | n + 1, k, x => x.take k :: chunks n k (x.drop k)

/-- The bits of one byte, MSB first (R52): bit `t` of the stream is bit `7 − t` of the byte. -/
def bitsOfByte (y : Byte) : Bits := (List.range 8).map fun t => y.getLsbD (7 - t)

/-- `bits_of_bytes` (R52). -/
def bitsOfBytes (ys : List Byte) : Bits := ys.flatMap bitsOfByte

/-- The byte of at most eight bits, MSB first, its missing low bits 0 (R52). -/
def byteOfBits (x : Bits) : Byte := BitVec.ofFnBE fun t : Fin 8 => bitAt x t

/-- `bytes_of_bits` (R52): `ceil_div(len(x), 8)` bytes, a final partial byte padded with zeros in its low bits. -/
def bytesOfBits (x : Bits) : List Byte := (chunks (ceilDiv x.length 8) 8 x).map byteOfBits

end Sys2Proof.Machine
end

