-- ==== Sys2Proof/Machine/Ops.lean ====
section
/-! DEFINITION. The named operations over BMEM and the registers: byte reads and writes (20_memory.md R51), slot writes with the
iterator's invalidation (00_scope.md R9, 45_iteration.md R193), completion (10_state.md R28), fault entry and its only way
out, reset (60_exceptions.md R310, R313), and the frame every command runs in. -/

namespace Sys2Proof.Machine

/-- The byte BMEM lists at `a`, if it has been written since reset. -/
def Memory.read? : Memory → Nat → Option Byte
  | [], _ => none
  | (b, v) :: m, a => if a = b then some v else Memory.read? m a

/-- BMEM with byte `a` written, the addresses still rising. -/
def Memory.write : Memory → Nat → Byte → Memory
  | [], a, v => [(a, v)]
  | (b, u) :: m, a, v =>
    if a < b then (a, v) :: (b, u) :: m
    else if a = b then (a, v) :: m
    else (b, u) :: Memory.write m a v

/-- BMEM with the bytes written at `a`, `a + 1`, and so on. -/
def Memory.writeBytes : Memory → Nat → List Byte → Memory
  | m, _, [] => m
  | m, a, v :: vs => Memory.writeBytes (Memory.write m a v) (a + 1) vs

/-- The addresses rise strictly, from `lo` on, and stay below `limit`. -/
def Memory.ascending (limit : Nat) : Nat → Memory → Bool
  | _, [] => true
  | lo, (a, _) :: m => decide (lo ≤ a) && decide (a < limit) && Memory.ascending limit (a + 1) m

/-- The canonical form of a BMEM of `limit` bytes: strictly rising addresses, all below `limit` (log entry 5). -/
def Memory.wf (limit : Nat) (m : Memory) : Bool := Memory.ascending limit 0 m

/-- `MemRead(a, 1)` (R51). A byte that nothing has written since reset is the free draw of I4 (log entry 4). -/
def State.memRead (s : State) (a : Nat) : Byte :=
  (Memory.read? s.bmem a).getD (Config.bmemDraw s.bmemEpoch a)

/-- `MemWrite(a, 1, v)` (R51). -/
def State.memWrite (s : State) (a : Nat) (v : Byte) : State := { s with bmem := Memory.write s.bmem a v }

/-- `MemWrite(a + q, 1, vs[q])` for every `q` (R104). -/
def State.memWriteBytes (s : State) (a : Nat) (vs : List Byte) : State :=
  { s with bmem := Memory.writeBytes s.bmem a vs }

/-- `buf[a] <- x` (00_scope.md R9). The slot counts as written even when its contents stay the same, and a write to the slot the
iterator is bound to unbinds it (45_iteration.md R193). -/
def State.writeBuf (s : State) (a : SlotField) (x : Bits) : State :=
  { s with
    slots := s.slots.set a.toNat x
    iter := if s.iter.itv = true ∧ s.iter.itslot = a then Iter.unbound else s.iter }

/-- `CMDCOUNT <- (CMDCOUNT + 1) mod 2^32` (10_state.md R28). -/
def State.counted (s : State) : State := { s with cmdCount := s.cmdCount + 1 }

/-- The cause code of an exception (60_exceptions.md R300). -/
def Exc.code : Exc → BitVec 8
  | .illegalCommand => 1
  | .boundsError => 2
  | .capacityOverflow => 3
  | .lengthMismatch => 4
  | .portRangeError => 5

/-- Fault entry (60_exceptions.md R310): FAULT, CAUSE, ERRIDX and the faulting command word are recorded, and nothing else
changes. -/
def State.raise (s : State) (x : Exc) (cmd : Cmd) : State :=
  { s with
    fault := true
    cause := x.code
    errIdx := s.cmdCount
    errCmdLo := cmd.extractLsb' 0 32
    errCmdHi := cmd.extractLsb' 32 32 }

/-- Reset (70_reset_and_hazards.md R350), the only way out of the faulted state (60_exceptions.md R313): every piece of state takes
its value of 10_state.md R36, and BMEM a fresh draw. The host's further interactions stay to come. -/
def State.resetBlock (s : State) : State :=
  { State.afterReset s.cfg (s.bmemEpoch + 1) with inputs := s.inputs }

/-- While FAULT is 1 every submitted command is discarded, with no effect (60_exceptions.md R311). -/
def unlessFaulted (s : State) (live : State) : Host.Outcome State Fault Refusal :=
  if s.fault = true then .next s else .next live

/-- What a command leaves: its effect and one more command counted, or the fault record of the exception it raised. -/
def settle (cmd : Cmd) (s : State) : Except Exc State → State
  | .ok t => t.counted
  | .error x => s.raise x cmd

/-- The frame every command runs in. A discarded command changes nothing (R311). A command whose operands fail the decode checks 4 to
6 raises IllegalCommand (30_encoding.md R78). Any other command takes its effect, which raises before it writes (R11). The
word recorded by a fault is the command's own (log entry 7). -/
def command (i : Instr) (s : State) (effect : State → Except Exc State) : Host.Outcome State Fault Refusal :=
  unlessFaulted s (settle (encode i) s
    (if i.wellFormed s.cfg.nbuf = true then effect s else .error .illegalCommand))

/-- A word the decoder rejects raises IllegalCommand with its own bits in the record (30_encoding.md R78, 60_exceptions.md R301). -/
def rejectWord (w : Cmd) (s : State) : Host.Outcome State Fault Refusal :=
  unlessFaulted s (s.raise .illegalCommand w)

end Sys2Proof.Machine
end

