-- ==== Sys2Proof/Machine/BitAccess.lean ====
section
/-! DEFINITION. Bit access: GET, SET, PUSH, POP (42_bit_access.md). -/

namespace Sys2Proof.Machine

/-- GET (R130): `RES <- buf[a][imm]`, BoundsError from the length on (C1). -/
def execGet (a : SlotField) (i : ImmField) (s : State) : Host.Outcome State Fault Refusal :=
  command (.get a i) s fun s =>
    if i.toNat ≥ s.len a then .error .boundsError
    else .ok (s.withResBit (bitAt (s.buf a) i.toNat))

/-- SET (R131): `buf[a] <- buf[a] with [imm] = v`. -/
def execSet (a : SlotField) (i : ImmField) (v : Bool) (s : State) : Host.Outcome State Fault Refusal :=
  command (.set a i v) s fun s =>
    if i.toNat ≥ s.len a then .error .boundsError
    else .ok (s.writeBuf a ((s.buf a).set i.toNat v))

/-- PUSH (R132): `buf[a] <- buf[a] ++ [v]`. -/
def execPush (a : SlotField) (v : Bool) (s : State) : Host.Outcome State Fault Refusal :=
  command (.push a v) s fun s =>
    if s.len a + 1 > s.cfg.maxBits then .error .capacityOverflow
    else .ok (s.writeBuf a (s.buf a ++ [v]))

/-- POP (R133): the tail bit to RES and off the slot; on an empty slot no element. The slot counts as written in both cases. -/
def execPop (a : SlotField) (s : State) : Host.Outcome State Fault Refusal :=
  command (.pop a) s fun s =>
    if s.len a = 0 then .ok ((s.writeBuf a []).withNoElement)
    else .ok ((s.writeBuf a (slice (s.buf a) 0 (s.len a - 1))).withResBit (bitAt (s.buf a) (s.len a - 1)))

end Sys2Proof.Machine
end

