-- ==== Sys2Proof/Machine/BooleanAlgebra.lean ====
section
/-! DEFINITION. The word boolean-algebra unit: UNION, INTER, DIFF, ALL, NONE, ANY (44_boolean_algebra.md), stated lane by lane on
the bit sequences as R170 to R175 state it. -/

namespace Sys2Proof.Machine

/-- The shared shape of R170 to R172: equal lengths, lane-wise `f` into `a`, RES says whether a lane changed. -/
def laneWise (f : Bool → Bool → Bool) (a b : SlotField) (s : State) : Except Exc State :=
  if s.len a ≠ s.len b then .error .lengthMismatch
  else
    .ok ((s.writeBuf a (List.zipWith f (s.buf a) (s.buf b))).withResBit
      (decide (List.zipWith f (s.buf a) (s.buf b) ≠ s.buf a)))

/-- UNION (R170): lane-wise OR into `a`. -/
def execUnion (a b : SlotField) (s : State) : Host.Outcome State Fault Refusal :=
  command (.union a b) s (laneWise (fun p q => p || q) a b)

/-- INTER (R171): lane-wise AND into `a`. -/
def execInter (a b : SlotField) (s : State) : Host.Outcome State Fault Refusal :=
  command (.inter a b) s (laneWise (fun p q => p && q) a b)

/-- DIFF (R172): lane-wise AND-NOT into `a`. -/
def execDiff (a b : SlotField) (s : State) : Host.Outcome State Fault Refusal :=
  command (.diff a b) s (laneWise (fun p q => p && !q) a b)

/-- ALL (R173): every bit is 1; true of an empty slot. -/
def execAll (a : SlotField) (s : State) : Host.Outcome State Fault Refusal :=
  command (.all a) s fun s => .ok (s.withResBit ((s.buf a).all fun p => p))

/-- NONE (R174): no bit is 1; true of an empty slot. -/
def execNone (a : SlotField) (s : State) : Host.Outcome State Fault Refusal :=
  command (.none a) s fun s => .ok (s.withResBit ((s.buf a).all fun p => !p))

/-- ANY (R175): some bit is 1; false of an empty slot. -/
def execAny (a : SlotField) (s : State) : Host.Outcome State Fault Refusal :=
  command (.any a) s fun s => .ok (s.withResBit ((s.buf a).any fun p => p))

end Sys2Proof.Machine
end

