-- ==== Sys2Proof/Machine/Construction.lean ====
section
/-! DEFINITION. Construction, byte marshaling, copy and length: NEW, WCAP, FILL, FROMB, TOB, CLONE, LEN (41_construction.md). -/

namespace Sys2Proof.Machine

/-- NEW (R100): `buf[a] <- []`. -/
def execNew (a : SlotField) (s : State) : Host.Outcome State Fault Refusal :=
  command (.new a) s fun s => .ok (s.writeBuf a [])

/-- WCAP (R101): NEW with a check of the requested capacity. -/
def execWcap (a : SlotField) (bits : ImmField) (s : State) : Host.Outcome State Fault Refusal :=
  command (.wcap a bits) s fun s =>
    if bits.toNat > s.cfg.maxBits then .error .capacityOverflow
    else .ok (s.writeBuf a [])

/-- FILL (R102): `buf[a] <- replicate(imm, v)`. -/
def execFill (a : SlotField) (n : ImmField) (v : Bool) (s : State) : Host.Outcome State Fault Refusal :=
  command (.fill a n v) s fun s =>
    if n.toNat > s.cfg.maxBits then .error .capacityOverflow
    else .ok (s.writeBuf a (List.replicate n.toNat v))

/-- FROMB (R103): the bits of BMEM bytes `0` to `imm − 1`. PortRangeError goes before CapacityOverflow (R312). -/
def execFromb (a : SlotField) (nbytes : ImmField) (s : State) : Host.Outcome State Fault Refusal :=
  command (.fromb a nbytes) s fun s =>
    if nbytes.toNat > s.cfg.bmemBytes then .error .portRangeError
    else if 8 * nbytes.toNat > s.cfg.maxBits then .error .capacityOverflow
    else .ok (s.writeBuf a (bitsOfBytes ((List.range nbytes.toNat).map s.memRead)))

/-- TOB (R104): the bytes of the slot to BMEM from address 0, their number to RES. -/
def execTob (a : SlotField) (s : State) : Host.Outcome State Fault Refusal :=
  command (.tob a) s fun s =>
    if ceilDiv (s.len a) 8 > s.cfg.bmemBytes then .error .portRangeError
    else .ok ((s.memWriteBytes 0 (bytesOfBits (s.buf a))).withRes (ceilDiv (s.len a) 8))

/-- CLONE (R105): `buf[a] <- buf[b]`. -/
def execClone (a b : SlotField) (s : State) : Host.Outcome State Fault Refusal :=
  command (.clone a b) s fun s => .ok (s.writeBuf a (s.buf b))

/-- LEN (R106): `RES <- len[a]`. -/
def execLen (a : SlotField) (s : State) : Host.Outcome State Fault Refusal :=
  command (.len a) s fun s => .ok (s.withRes (s.len a))

end Sys2Proof.Machine
end

