-- ==== Sys2Proof/Machine/Hamming.lean ====
section
/-! DEFINITION. The Hamming codec syndrome engine: HENC, HDEC, HSYN (46_hamming.md). A codeword block `c[1..L]` is a bit sequence
whose element `j − 1` is the bit at the 1-indexed position `j` (R203, R204, C3). -/

namespace Sys2Proof.Machine

/-- The codeword block length `L = 2^p − 1` (R200). -/
def blockLen (p : Nat) : Nat := 2 ^ p - 1

/-- The data group length `D = 2^p − p − 1` (R200). -/
def groupLen (p : Nat) : Nat := 2 ^ p - p - 1

/-- `isParity(j)`: the position is a power of two (R201). -/
def isParity (j : Nat) : Bool := decide (1 ≤ j) && decide (j &&& (j - 1) = 0)

/-- The data positions `dpos` of `1..L` in increasing order (R202). -/
def dataPositions (p : Nat) : List Nat := (List.range' 1 (blockLen p)).filter fun j => !isParity j

/-- Arrange `n` positions from `j` on: 0 at parity positions, the data bits in order at all others (R202, R203). -/
def arrangeFrom : Nat → Nat → Bits → Bits
  | 0, _, _ => []
  | n + 1, j, g =>
    if isParity j = true then false :: arrangeFrom n (j + 1) g
    else bitAt g 0 :: arrangeFrom n (j + 1) g.tail

/-- `arrange` (R203). -/
def arrange (p : Nat) (g : Bits) : Bits := arrangeFrom (blockLen p) 1 g

/-- The XOR of the bits at positions `i ≥ m` with `i & m ≠ 0`, for a sequence that starts at position `j` (R203). -/
def maskedXor (m : Nat) : Nat → Bits → Bool
  | _, [] => false
  | j, b :: c => Bool.xor (decide (m ≤ j) && decide (j &&& m ≠ 0) && b) (maskedXor m (j + 1) c)

/-- The check of mask `m` over a codeword block: `⊕ { c[j] : m ≤ j ≤ L, (j & m) ≠ 0 }` (R203). -/
def checkBit (m : Nat) (c : Bits) : Bool := maskedXor m 1 c

/-- `parity` (R203): the check of each mask stored at the position equal to the mask. -/
def parity (p : Nat) (c : Bits) : Bits :=
  (List.range p).foldl (fun c n => c.set (2 ^ n - 1) (checkBit (2 ^ n) c)) c

/-- `check` (R203): the syndrome, the XOR of the masks of the disagreeing checks. -/
def check (p : Nat) (c : Bits) : Nat :=
  (List.range p).foldl (fun S n => if checkBit (2 ^ n) c = true then S ^^^ 2 ^ n else S) 0

/-- `correct` (R203): the error locator flips position `S` when `S ≠ 0`. -/
def correct (c : Bits) (S : Nat) : Bits := if S = 0 then c else c.set (S - 1) (!bitAt c (S - 1))

/-- The bits at the data positions of a sequence that starts at position `j`. -/
def assembleFrom : Nat → Bits → Bits
  | _, [] => []
  | j, b :: c => if isParity j = true then assembleFrom (j + 1) c else b :: assembleFrom (j + 1) c

/-- `assemble` (R203): strips all power-of-two positions. -/
def assemble (c : Bits) : Bits := assembleFrom 1 c

/-- `encode_block` (R203). -/
def encodeBlock (p : Nat) (g : Bits) : Bits := parity p (arrange p g)

/-- `decode_block` (R203). -/
def decodeBlock (p : Nat) (c : Bits) : Bits := assemble (correct c (check p c))

/-- The number of data groups of `n` bits, the last one padded (R204). -/
def groupCount (p n : Nat) : Nat := ceilDiv n (groupLen p)

/-- The coded sequence of R204: `x` padded with 0 to whole groups, each group encoded, in block order (log entry 12). -/
def hammingEncode (p : Nat) (x : Bits) : Bits :=
  (chunks (groupCount p x.length) (groupLen p)
    (x ++ List.replicate (groupCount p x.length * groupLen p - x.length) false)).flatMap (encodeBlock p)

/-- The decoded sequence of R206: each whole block decoded, in block order; a trailing shorter group is discarded. -/
def hammingDecode (p : Nat) (y : Bits) : Bits :=
  (chunks (y.length / blockLen p) (blockLen p) y).flatMap (decodeBlock p)

/-- HENC (R204, R205): encodes slot `b` into slot `a`. -/
def execHenc (a b : SlotField) (p : ParamField) (s : State) : Host.Outcome State Fault Refusal :=
  command (.henc a b p) s fun s =>
    if groupCount p.toNat (s.len b) * blockLen p.toNat > s.cfg.maxBits then .error .capacityOverflow
    else .ok (s.writeBuf a (hammingEncode p.toNat (s.buf b)))

/-- HDEC (R206): decodes slot `b` into slot `a`. -/
def execHdec (a b : SlotField) (p : ParamField) (s : State) : Host.Outcome State Fault Refusal :=
  command (.hdec a b p) s fun s => .ok (s.writeBuf a (hammingDecode p.toNat (s.buf b)))

/-- HSYN (R207): the syndrome of block `k` of slot `a` to RES. -/
def execHsyn (a : SlotField) (p : ParamField) (k : ImmField) (s : State) : Host.Outcome State Fault Refusal :=
  command (.hsyn a p k) s fun s =>
    if (k.toNat + 1) * blockLen p.toNat > s.len a then .error .boundsError
    else
      .ok (s.withRes (check p.toNat
        (slice (s.buf a) (k.toNat * blockLen p.toNat) (k.toNat * blockLen p.toNat + blockLen p.toNat))))

end Sys2Proof.Machine
end

