-- ==== Sys2Proof/Machine/Iteration.lean ====
section
/-! DEFINITION. Iteration: ITER, INEXT, IPREV (45_iteration.md). A traversal reads each bit when it yields it (R194). Invalidation
(R193) stands in the slot write, `State.writeBuf`. -/

namespace Sys2Proof.Machine

/-- ITER (R190): binds the iterator to slot `a`, or restarts it. -/
def execIter (a : SlotField) (s : State) : Host.Outcome State Fault Refusal :=
  command (.iter a) s fun s =>
    .ok { s with iter := { itv := true, itslot := a, itf := 0, itb := BitVec.ofNat 32 (s.len a) } }

/-- INEXT (R191): the bit at the front cursor, which moves forward; no element once the cursors have met. Decode check 7 of R78 is the
first test. -/
def execInext (s : State) : Host.Outcome State Fault Refusal :=
  command .inext s fun s =>
    if s.iter.itv = false then .error .illegalCommand
    else if s.iter.itf = s.iter.itb then .ok s.withNoElement
    else
      .ok { s.withResBit (bitAt (s.buf s.iter.itslot) s.iter.itf.toNat) with
        iter := { s.iter with itf := s.iter.itf + 1 } }

/-- IPREV (R192): the back cursor moves backward and the bit there is yielded; no element once the cursors have met. -/
def execIprev (s : State) : Host.Outcome State Fault Refusal :=
  command .iprev s fun s =>
    if s.iter.itv = false then .error .illegalCommand
    else if s.iter.itf = s.iter.itb then .ok s.withNoElement
    else
      .ok { s.withResBit (bitAt (s.buf s.iter.itslot) (s.iter.itb - 1).toNat) with
        iter := { s.iter with itb := s.iter.itb - 1 } }

end Sys2Proof.Machine
end

