-- ==== Sys2Proof/Machine/Structural.lean ====
section
/-! DEFINITION. Structural operations: APPEND, SPLIT, TRUNC, GROW (43_structural.md). -/

namespace Sys2Proof.Machine

/-- APPEND (R150): the bits of `b` onto the tail of `a`, leaving `b` empty. -/
def execAppend (a b : SlotField) (s : State) : Host.Outcome State Fault Refusal :=
  command (.append a b) s fun s =>
    if s.len a + s.len b > s.cfg.maxBits then .error .capacityOverflow
    else .ok ((s.writeBuf a (s.buf a ++ s.buf b)).writeBuf b [])

/-- SPLIT (R151): `a` keeps `[0, at)`, `b` takes `[at, len)`. -/
def execSplit (a b : SlotField) (cut : ImmField) (s : State) : Host.Outcome State Fault Refusal :=
  command (.split a b cut) s fun s =>
    if cut.toNat > s.len a then .error .boundsError
    else .ok ((s.writeBuf a (slice (s.buf a) 0 cut.toNat)).writeBuf b (slice (s.buf a) cut.toNat (s.len a)))

/-- TRUNC (R152): shortens, never lengthens, and counts the slot as written either way. -/
def execTrunc (a : SlotField) (length : ImmField) (s : State) : Host.Outcome State Fault Refusal :=
  command (.trunc a length) s fun s =>
    .ok (s.writeBuf a (if length.toNat < s.len a then slice (s.buf a) 0 length.toNat else s.buf a))

/-- GROW (R153): `buf[a] <- buf[a] ++ replicate(imm, v)`. -/
def execGrow (a : SlotField) (n : ImmField) (v : Bool) (s : State) : Host.Outcome State Fault Refusal :=
  command (.grow a n v) s fun s =>
    if s.len a + n.toNat > s.cfg.maxBits then .error .capacityOverflow
    else .ok (s.writeBuf a (s.buf a ++ List.replicate n.toNat v))

end Sys2Proof.Machine
end

