-- ==== Sys2Proof/Machine/Dispatch.lean ====
section
/-! DEFINITION. One arm per command (30_encoding.md R77), each one call of its meaning. -/

namespace Sys2Proof.Machine

def exec (i : Instr) (s : State) : Host.Outcome State Fault Refusal :=
  match i with
  | .new a => Sys2Proof.Machine.execNew a s
  | .wcap a bits => Sys2Proof.Machine.execWcap a bits s
  | .fill a n v => Sys2Proof.Machine.execFill a n v s
  | .fromb a nbytes => Sys2Proof.Machine.execFromb a nbytes s
  | .tob a => Sys2Proof.Machine.execTob a s
  | .clone a b => Sys2Proof.Machine.execClone a b s
  | .len a => Sys2Proof.Machine.execLen a s
  | .get a idx => Sys2Proof.Machine.execGet a idx s
  | .set a idx v => Sys2Proof.Machine.execSet a idx v s
  | .push a v => Sys2Proof.Machine.execPush a v s
  | .pop a => Sys2Proof.Machine.execPop a s
  | .append a b => Sys2Proof.Machine.execAppend a b s
  | .split a b cut => Sys2Proof.Machine.execSplit a b cut s
  | .trunc a length => Sys2Proof.Machine.execTrunc a length s
  | .grow a n v => Sys2Proof.Machine.execGrow a n v s
  | .union a b => Sys2Proof.Machine.execUnion a b s
  | .inter a b => Sys2Proof.Machine.execInter a b s
  | .diff a b => Sys2Proof.Machine.execDiff a b s
  | .all a => Sys2Proof.Machine.execAll a s
  | .none a => Sys2Proof.Machine.execNone a s
  | .any a => Sys2Proof.Machine.execAny a s
  | .iter a => Sys2Proof.Machine.execIter a s
  | .inext => Sys2Proof.Machine.execInext s
  | .iprev => Sys2Proof.Machine.execIprev s
  | .henc a b p => Sys2Proof.Machine.execHenc a b p s
  | .hdec a b p => Sys2Proof.Machine.execHdec a b p s
  | .hsyn a p k => Sys2Proof.Machine.execHsyn a p k s

end Sys2Proof.Machine
end

