-- ==== Sys2Proof/Machine/HostPort.lean ====
section
/-! DEFINITION. The host's side of the block (70_reset_and_hazards.md R354): the command port, the register map (10_state.md R30),
the BMEM port (20_memory.md R64) and the reset input (R350). -/

namespace Sys2Proof.Machine

/-- SUBMIT (R354): decodes the word (30_encoding.md R78) and executes the command, or rejects the word. While FAULT is 1 either is
discarded (60_exceptions.md R311). -/
def submit (w : Cmd) (s : State) : Host.Outcome State Fault Refusal :=
  match decode s.cfg.nbuf w with
  | .ok i => exec i s
  | .error _ => rejectWord w s

/-- The host register map (10_state.md R30). Numbers 0x09 to 0xFF are reserved and read 0. -/
def State.hostReg (s : State) (n : BitVec 8) : Word :=
  match n.toNat with
  | 0 => s.status
  | 1 => s.res
  | 2 => s.cmdCount
  | 3 => s.errIdx
  | 4 => s.errCmdLo
  | 5 => s.errCmdHi
  | 6 => BitVec.ofNat 32 s.cfg.nbuf
  | 7 => BitVec.ofNat 32 s.cfg.maxWords
  | 8 => BitVec.ofNat 32 s.cfg.bmemBytes
  | _ => 0

/-- A host access to BMEM goes ahead below `BMEM_BYTES`; at any other address the host breaks its duty and has no move (20_memory.md
R57, R64, 93_implementation_defined.md I7). -/
def withinBmem (s : State) (a : Nat) (live : State) : Host.Outcome State Fault Refusal :=
  if a < s.cfg.bmemBytes then .next live else .refused .hostAddressOutsideBmem

/-- One interaction of the host, with what the host gets back left in `reply` (R354). -/
def hostTurn (e : HostEvent) (s : State) : Host.Outcome State Fault Refusal :=
  match e with
  | .submit w => submit w { s with reply := .completion }
  | .readReg n => .next { s with reply := .reg (s.hostReg n) }
  | .writeReg _ _ => .next { s with reply := .nothing }
  | .bmemRead a => withinBmem s a { s with reply := .byte (s.memRead a) }
  | .bmemWrite a v => withinBmem s a { s.memWrite a v with reply := .nothing }
  | .reset => .next s.resetBlock

/-- A word of `nbits` bits, the bits above them 0, as the next thing the host submits: what `State.withFetchWord` places. -/
def placeCommand (s : State) (nbits w : Nat) : State :=
  { s with inputs := .submit (BitVec.ofNat 64 (w % 2 ^ nbits)) :: s.inputs }

/-- One step: the host's next interaction, taken off `inputs`. With none to come the block is idle and keeps all state
(60_exceptions.md R322). -/
def turn (s : State) : Host.Outcome State Fault Refusal :=
  match s.inputs with
  | [] => .next s
  | e :: es => hostTurn e { s with inputs := es }

end Sys2Proof.Machine
end

