-- ==== Sys2Proof/Machine/Step.lean ====
section
/-! DEFINITION. One step of the machine: one interaction of the host (70_reset_and_hazards.md R354, R360). -/

namespace Sys2Proof.Machine

/-- One step (`turn`). -/
def step (s : State) : Host.Outcome State Fault Refusal := turn s

/-- The word as the host's next SUBMIT, so that the very next step decodes and executes it (log entry 11). -/
def State.withFetchWord (s : State) (nbits w : Nat) : State := placeCommand s nbits w

end Sys2Proof.Machine
end

