-- ==== Sys2Proof/Machine/Storage.lean ====
section
/-! DEFINITION. The word view of a slot: its storage words `W[s][k]` (10_state.md R22), and the word-level methods of the
boolean-algebra unit (44_boolean_algebra.md R176). The slot itself is held as its bit sequence (R24), so the words are
computed from it, and the tail-zero invariant (R23) shows in them. -/

namespace Sys2Proof.Machine

/-- Storage word `k` of a slot that holds `x`: offset `o` has weight `2^o` (R22, D4), and bits past the length are 0 (R23). -/
def storageWord (x : Bits) (k : Nat) : Word := BitVec.ofFnLE fun o : Fin 32 => bitAt x (32 * k + o)

/-- `stored_bit(s, i)` (R22). -/
def State.storedBit (s : State) (a : SlotField) (i : Nat) : Bool :=
  (storageWord (s.buf a) (i / 32)).getLsbD (i % 32)

/-- The occupied words of a slot that holds `x`: `w = ceil_div(n, 32)` of them (R176). -/
def occupiedWords (x : Bits) : List Word := (List.range (ceilDiv x.length 32)).map (storageWord x)

/-- The valid-bits mask `VM(n)` of the last occupied word (R176). -/
def validMask (n : Nat) : Word := if n % 32 ≠ 0 then BitVec.ofNat 32 (2 ^ (n % 32) - 1) else 0xFFFFFFFF

/-- The word-level method of ALL over the occupied words of a buffer of length `n` (R176). -/
def wordsAll (n : Nat) (ws : List Word) : Bool :=
  decide (n = 0) || (ws.dropLast.all (fun w => w == 0xFFFFFFFF) && ws.getLast? == some (validMask n))

/-- The word-level method of NONE (R176). -/
def wordsNone (ws : List Word) : Bool := ws.all fun w => w == 0

/-- The word-level method of ANY (R176). -/
def wordsAny (ws : List Word) : Bool := ws.any fun w => w != 0

end Sys2Proof.Machine
end

