-- ==== Sys2Proof/Safety.lean ====
section
/-! DEFINITION. The terms claims about the block are stated in: the invariant of its states (10_state.md), what a command leaves
unchanged, how a fault shows (60_exceptions.md R310), and the spec's own tables of which command writes or raises what. -/

namespace Sys2Proof.Machine

/-! ## The invariant -/

/-- There are `NBUF` slots (10_state.md R20), each of at most `MAXBITS` bits (R21). -/
abbrev State.SlotsOk (s : State) : Prop :=
  s.slots.length = s.cfg.nbuf ∧ ∀ x ∈ s.slots, x.length ≤ s.cfg.maxBits

/-- While ITV is 1, `ITF ≤ ITB ≤ len[ITSLOT]` on an existing slot (10_state.md R33); while ITV is 0 the other fields are 0, as
reset (R36) and invalidation (45_iteration.md R193) leave them. -/
abbrev State.IterOk (s : State) : Prop :=
  (s.iter.itv = true →
    s.iter.itslot.toNat < s.cfg.nbuf ∧ s.iter.itf.toNat ≤ s.iter.itb.toNat ∧ s.iter.itb.toNat ≤ s.len s.iter.itslot) ∧
  (s.iter.itv = false → s.iter = Iter.unbound)

/-- While FAULT is 0 CAUSE and the fault record read 0 (10_state.md R29, R31); while it is 1 CAUSE is one of 1 to 5 (R29) and the
faulting command's index is still the count of completed commands (R28, R31). -/
abbrev State.RecordOk (s : State) : Prop :=
  (s.fault = false → s.cause = 0 ∧ s.errIdx = 0 ∧ s.errCmdLo = 0 ∧ s.errCmdHi = 0) ∧
  (s.fault = true → 1 ≤ s.cause.toNat ∧ s.cause.toNat ≤ 5 ∧ s.errIdx = s.cmdCount)

/-- RES is 0 while NOELEM is 1 (10_state.md R26). -/
abbrev State.ResultOk (s : State) : Prop := s.noelem = true → s.res = 0

/-- The invariant of the block's states: legal parameters (00_scope.md R4), slots, iterator, fault record and result as above, and BMEM
in its canonical form inside its address range (20_memory.md R50). -/
abbrev State.Inv (s : State) : Prop :=
  s.cfg.Legal ∧ s.SlotsOk ∧ s.IterOk ∧ s.RecordOk ∧ s.ResultOk ∧ Memory.wf s.cfg.bmemBytes s.bmem = true

/-! ## What a command leaves -/

/-- The next state of an outcome, if it is one. -/
def nextState? : Host.Outcome State Fault Refusal → Option State
  | .next s => some s
  | .fault _ => none
  | .refused _ => none

/-- Fault entry with this cause code for this command word: exactly the five fault fields change (60_exceptions.md R310). -/
def FaultsAs (code : BitVec 8) (w : Cmd) (s : State) (o : Host.Outcome State Fault Refusal) : Prop :=
  o = .next { s with
    fault := true
    cause := code
    errIdx := s.cmdCount
    errCmdHi := w.extractLsb' 32 32
    errCmdLo := w.extractLsb' 0 32 }

/-- What every completed command leaves alone, with `ws` the slots it writes: every other slot, the parameters, the fault fields and the
model's own fields; and CMDCOUNT goes up by one (10_state.md R28). -/
structure CommandFrame (ws : List SlotField) (s t : State) : Prop where
  cfg : t.cfg = s.cfg
  slots : ∀ c, c ∉ ws → t.buf c = s.buf c
  cmdCount : t.cmdCount = s.cmdCount + 1
  fault : t.fault = s.fault
  cause : t.cause = s.cause
  errIdx : t.errIdx = s.errIdx
  errCmdLo : t.errCmdLo = s.errCmdLo
  errCmdHi : t.errCmdHi = s.errCmdHi
  bmemEpoch : t.bmemEpoch = s.bmemEpoch
  inputs : t.inputs = s.inputs
  reply : t.reply = s.reply

/-- RES and NOELEM are as before. -/
def SameResult (s t : State) : Prop := t.res = s.res ∧ t.noelem = s.noelem

/-- Every byte of BMEM reads as before. -/
def SameBmem (s t : State) : Prop := ∀ a, t.memRead a = s.memRead a

/-- The iterator is as before. -/
def SameIter (s t : State) : Prop := t.iter = s.iter

/-- The iterator after a command that wrote the slots `ws`: unbound if it was bound to one of them, else as before
(45_iteration.md R193). -/
def IterAfterWriting (ws : List SlotField) (s t : State) : Prop :=
  (s.iter.itv = true ∧ s.iter.itslot ∈ ws → t.iter = { itv := false, itslot := 0, itf := 0, itb := 0 }) ∧
  (¬ (s.iter.itv = true ∧ s.iter.itslot ∈ ws) → t.iter = s.iter)

/-- The frame of a command that writes the slots `ws` and no result. -/
def WriterFrame (ws : List SlotField) (s t : State) : Prop :=
  CommandFrame ws s t ∧ SameResult s t ∧ SameBmem s t ∧ IterAfterWriting ws s t

/-- The frame of a command that writes no slot and leaves BMEM and the iterator alone, but writes RES and NOELEM. -/
def ReaderFrame (s t : State) : Prop := CommandFrame [] s t ∧ SameBmem s t ∧ SameIter s t

/-- RES holds `n` and NOELEM is 0 (10_state.md R26). -/
def Returns (n : Nat) (t : State) : Prop := t.res.toNat = n ∧ t.noelem = false

/-- RES is 0 and NOELEM is 1 (10_state.md R26). -/
def ReturnsNoElement (t : State) : Prop := t.res = 0 ∧ t.noelem = true

/-! ## The spec's tables -/

/-- The slots each command's rule lists as written (files 41 to 46). -/
def slotsWritten : Instr → List SlotField
  | .new a => [a]
  | .wcap a _ => [a]
  | .fill a _ _ => [a]
  | .fromb a _ => [a]
  | .tob _ => []
  | .clone a _ => [a]
  | .len _ => []
  | .get _ _ => []
  | .set a _ _ => [a]
  | .push a _ => [a]
  | .pop a => [a]
  | .append a b => [a, b]
  | .split a b _ => [a, b]
  | .trunc a _ => [a]
  | .grow a _ _ => [a]
  | .union a _ => [a]
  | .inter a _ => [a]
  | .diff a _ => [a]
  | .all _ => []
  | .none _ => []
  | .any _ => []
  | .iter _ => []
  | .inext => []
  | .iprev => []
  | .henc a _ _ => [a]
  | .hdec a _ _ => [a]
  | .hsyn _ _ _ => []

/-- The commands that write RES and NOELEM (10_state.md R26). -/
def writesResult : Instr → Bool
  | .len _ | .tob _ | .get _ _ | .pop _ => true
  | .union _ _ | .inter _ _ | .diff _ _ => true
  | .all _ | .none _ | .any _ => true
  | .inext | .iprev => true
  | .hsyn _ _ _ => true
  | .new _ | .wcap _ _ | .fill _ _ _ | .fromb _ _ | .clone _ _ => false
  | .set _ _ _ | .push _ _ => false
  | .append _ _ | .split _ _ _ | .trunc _ _ | .grow _ _ _ => false
  | .iter _ => false
  | .henc _ _ _ | .hdec _ _ _ => false

/-- The exceptions each command can raise besides IllegalCommand (60_exceptions.md R308). -/
def otherExceptions : Instr → List Exc
  | .new _ | .clone _ _ | .len _ | .pop _ | .trunc _ _ => []
  | .all _ | .none _ | .any _ | .iter _ | .inext | .iprev | .hdec _ _ _ => []
  | .wcap _ _ | .fill _ _ _ | .push _ _ | .append _ _ | .grow _ _ _ | .henc _ _ _ => [.capacityOverflow]
  | .fromb _ _ => [.portRangeError, .capacityOverflow]
  | .tob _ => [.portRangeError]
  | .get _ _ | .set _ _ _ | .split _ _ _ | .hsyn _ _ _ => [.boundsError]
  | .union _ _ | .inter _ _ | .diff _ _ => [.lengthMismatch]

/-- The commands that act on the iterator themselves (45_iteration.md). -/
def isIterCommand : Instr → Bool
  | .iter _ | .inext | .iprev => true
  | .new _ | .wcap _ _ | .fill _ _ _ | .fromb _ _ | .tob _ | .clone _ _ | .len _ => false
  | .get _ _ | .set _ _ _ | .push _ _ | .pop _ => false
  | .append _ _ | .split _ _ _ | .trunc _ _ | .grow _ _ _ => false
  | .union _ _ | .inter _ _ | .diff _ _ | .all _ | .none _ | .any _ => false
  | .henc _ _ _ | .hdec _ _ _ | .hsyn _ _ _ => false

/-- The rows of spec/opcode_table.json as it gives them: mnemonic, match, mask. -/
def tableRows : List (String × Cmd × Cmd) :=
  [ ("NEW", 0x0000000000000001, 0xFFFFFFFFFFFFF0FF),
    ("WCAP", 0x0000000000000002, 0x00000000FFFFF0FF),
    ("FILL", 0x0000000000000003, 0x00000000FFFEF0FF),
    ("FROMB", 0x0000000000000004, 0x00000000FFFFF0FF),
    ("TOB", 0x0000000000000005, 0xFFFFFFFFFFFFF0FF),
    ("CLONE", 0x0000000000000006, 0xFFFFFFFFFFFF00FF),
    ("LEN", 0x0000000000000007, 0xFFFFFFFFFFFFF0FF),
    ("GET", 0x0000000000000010, 0x00000000FFFFF0FF),
    ("SET", 0x0000000000000011, 0x00000000FFFEF0FF),
    ("PUSH", 0x0000000000000012, 0xFFFFFFFFFFFEF0FF),
    ("POP", 0x0000000000000013, 0xFFFFFFFFFFFFF0FF),
    ("APPEND", 0x0000000000000020, 0xFFFFFFFFFFFF00FF),
    ("SPLIT", 0x0000000000000021, 0x00000000FFFF00FF),
    ("TRUNC", 0x0000000000000022, 0x00000000FFFFF0FF),
    ("GROW", 0x0000000000000023, 0x00000000FFFEF0FF),
    ("UNION", 0x0000000000000030, 0xFFFFFFFFFFFF00FF),
    ("INTER", 0x0000000000000031, 0xFFFFFFFFFFFF00FF),
    ("DIFF", 0x0000000000000032, 0xFFFFFFFFFFFF00FF),
    ("ALL", 0x0000000000000034, 0xFFFFFFFFFFFFF0FF),
    ("NONE", 0x0000000000000035, 0xFFFFFFFFFFFFF0FF),
    ("ANY", 0x0000000000000036, 0xFFFFFFFFFFFFF0FF),
    ("ITER", 0x0000000000000040, 0xFFFFFFFFFFFFF0FF),
    ("INEXT", 0x0000000000000041, 0xFFFFFFFFFFFFFFFF),
    ("IPREV", 0x0000000000000042, 0xFFFFFFFFFFFFFFFF),
    ("HENC", 0x0000000000000050, 0xFFFFFFFFFFC100FF),
    ("HDEC", 0x0000000000000051, 0xFFFFFFFFFFC100FF),
    ("HSYN", 0x0000000000000052, 0x00000000FFC1F0FF) ]

/-- The word matches some row's match under its mask: checks 1 to 3 of R78. -/
def MatchesTable (w : Cmd) : Prop := ∃ r ∈ tableRows, w &&& r.2.2 = r.2.1

/-- The word of R71: `(IMM << 32) | (RSV << 22) | (P << 17) | (V << 16) | (B << 12) | (A << 8) | OPC`, RSV 0. -/
def fieldSum (opc : BitVec 8) (a b : SlotField) (v : Bool) (p : ParamField) (imm : ImmField) : Cmd :=
  (imm.setWidth 64 <<< 32) ||| (p.setWidth 64 <<< 17) ||| ((BitVec.ofBool v).setWidth 64 <<< 16) |||
    (b.setWidth 64 <<< 12) ||| (a.setWidth 64 <<< 8) ||| opc.setWidth 64

end Sys2Proof.Machine
end

