-- ==== Sys2Proof/Certificates/Slice0/Obligations.lean ====
section
/-! DEFINITION. The statements for the provers. Each docstring names the rule of spec/ it formalises. `FaultsAs`, the frames
(`WriterFrame`, `ReaderFrame`, `CommandFrame`), `Returns`, `SameBmem` and the invariant `State.Inv` are defined in
Sys2Proof/Safety.lean. The free bytes of BMEM (log entry 4) enter only through `State.memRead`, so every statement holds
whatever they are. -/

open Sys2Proof Sys2Proof.Machine

/-! ## Encoding -/

/-- The decoder reads back every well-formed command from its own word, for every number of slots (R78, R83). -/
def Obligations.DecodeReadsBackEveryCommand : Prop :=
  ∀ (nbuf : Nat) (i : Instr), i.wellFormed nbuf = true → decode nbuf (encode i) = .ok i

/-- A word the decoder accepts is the encoding of the command it names, which is well-formed: no bit of an accepted word is
ignored (R78). -/
def Obligations.AcceptedWordIsTheCommandsEncoding : Prop :=
  ∀ (nbuf : Nat) (w : Cmd) (i : Instr), decode nbuf w = .ok i → encode i = w ∧ i.wellFormed nbuf = true

/-- Every command's word is R71's field sum with the opcode of R77, each operand in the field of R76 and every other field 0 (R83). -/
def Obligations.CommandWordsAreTheFieldSums : Prop :=
  ∀ (a b : SlotField) (v : Bool) (p : ParamField) (imm : ImmField),
    encode (.new a) = fieldSum 0x01 a 0 false 0 0 ∧
    encode (.wcap a imm) = fieldSum 0x02 a 0 false 0 imm ∧
    encode (.fill a imm v) = fieldSum 0x03 a 0 v 0 imm ∧
    encode (.fromb a imm) = fieldSum 0x04 a 0 false 0 imm ∧
    encode (.tob a) = fieldSum 0x05 a 0 false 0 0 ∧
    encode (.clone a b) = fieldSum 0x06 a b false 0 0 ∧
    encode (.len a) = fieldSum 0x07 a 0 false 0 0 ∧
    encode (.get a imm) = fieldSum 0x10 a 0 false 0 imm ∧
    encode (.set a imm v) = fieldSum 0x11 a 0 v 0 imm ∧
    encode (.push a v) = fieldSum 0x12 a 0 v 0 0 ∧
    encode (.pop a) = fieldSum 0x13 a 0 false 0 0 ∧
    encode (.append a b) = fieldSum 0x20 a b false 0 0 ∧
    encode (.split a b imm) = fieldSum 0x21 a b false 0 imm ∧
    encode (.trunc a imm) = fieldSum 0x22 a 0 false 0 imm ∧
    encode (.grow a imm v) = fieldSum 0x23 a 0 v 0 imm ∧
    encode (.union a b) = fieldSum 0x30 a b false 0 0 ∧
    encode (.inter a b) = fieldSum 0x31 a b false 0 0 ∧
    encode (.diff a b) = fieldSum 0x32 a b false 0 0 ∧
    encode (.all a) = fieldSum 0x34 a 0 false 0 0 ∧
    encode (.none a) = fieldSum 0x35 a 0 false 0 0 ∧
    encode (.any a) = fieldSum 0x36 a 0 false 0 0 ∧
    encode (.iter a) = fieldSum 0x40 a 0 false 0 0 ∧
    encode .inext = fieldSum 0x41 0 0 false 0 0 ∧
    encode .iprev = fieldSum 0x42 0 0 false 0 0 ∧
    encode (.henc a b p) = fieldSum 0x50 a b false p 0 ∧
    encode (.hdec a b p) = fieldSum 0x51 a b false p 0 ∧
    encode (.hsyn a p imm) = fieldSum 0x52 a 0 false p imm

/-- The decoder accepts exactly the words that match a row of spec/opcode_table.json under its mask (checks 1 to 3 of R78) and whose
command passes checks 4 to 6. -/
def Obligations.DecoderAcceptsExactlyTheLegalWords : Prop :=
  ∀ (nbuf : Nat) (w : Cmd),
    (∃ i, decode nbuf w = .ok i) ↔ MatchesTable w ∧ ∀ i : Instr, encode i = w → i.wellFormed nbuf = true

/-- Words of spec/95_test_vectors.md, one or more from each family, decode to the commands written beside them there. -/
def Obligations.SampleWordsDecodeAsListed : Prop :=
  decode 8 0x0000000500010003 = .ok (.fill 0 5 true) ∧
  decode 8 0x0000000200000104 = .ok (.fromb 1 2) ∧
  decode 8 0x0000000200000111 = .ok (.set 1 2 false) ∧
  decode 8 0x0000000000010012 = .ok (.push 0 true) ∧
  decode 8 0x0000000300001021 = .ok (.split 0 1 3) ∧
  decode 8 0x0000000000002330 = .ok (.union 3 2) ∧
  decode 8 0x0000000000000240 = .ok (.iter 2) ∧
  decode 8 0x0000000000000041 = .ok .inext ∧
  decode 8 0x0000000000061251 = .ok (.hdec 2 1 3) ∧
  decode 8 0x0000000100060152 = .ok (.hsyn 1 3 1)

/-! ## The command port, faults and reset -/

/-- A step whose next interaction submits a word the decoder accepts executes its command, with the interaction taken off
`inputs` and completion reported (R354). -/
def Obligations.StepExecutesTheSubmittedCommand : Prop :=
  ∀ (s : State) (w : Cmd) (rest : List HostEvent) (i : Instr),
    s.inputs = .submit w :: rest → decode s.cfg.nbuf w = .ok i →
      step s = exec i { s with inputs := rest, reply := .completion }

/-- IllegalCommand, cause 1, is raised by a word that matches no row of the table (unassigned opcode, nonzero reserved or unused
field), by a command whose operands fail checks 4 to 6, and by INEXT and IPREV with no valid iterator (R301). -/
def Obligations.IllegalWordsRaiseIllegalCommand : Prop :=
  ∀ (s : State), s.fault = false →
    (∀ w, ¬ MatchesTable w → FaultsAs 1 w s (submit w s)) ∧
    (∀ i : Instr, i.wellFormed s.cfg.nbuf = false → FaultsAs 1 (encode i) s (submit (encode i) s)) ∧
    (s.iter.itv = false →
      FaultsAs 1 (encode .inext) s (submit (encode .inext) s) ∧ FaultsAs 1 (encode .iprev) s (submit (encode .iprev) s))

/-- In the faulted state every submitted word is discarded, register and BMEM accesses go on, the fault record stays, and only reset
clears FAULT (R311). -/
def Obligations.FaultedBlockDiscardsCommands : Prop :=
  ∀ (s : State) (rest : List HostEvent), s.fault = true →
    (∀ w, s.inputs = .submit w :: rest → step s = .next { s with inputs := rest, reply := .completion }) ∧
    (∀ n, s.inputs = .readReg n :: rest → step s = .next { s with inputs := rest, reply := .reg (s.hostReg n) }) ∧
    (∀ a, s.inputs = .bmemRead a :: rest → a < s.cfg.bmemBytes →
      step s = .next { s with inputs := rest, reply := .byte (s.memRead a) }) ∧
    (∀ a v, s.inputs = .bmemWrite a v :: rest → a < s.cfg.bmemBytes → ∃ t, step s = .next t ∧ t.memRead a = v) ∧
    (∀ e t, s.inputs = e :: rest → e ≠ .reset → step s = .next t →
      t.fault = true ∧ t.cause = s.cause ∧ t.errIdx = s.errIdx ∧ t.errCmdLo = s.errCmdLo ∧ t.errCmdHi = s.errCmdHi) ∧
    (s.inputs = .reset :: rest → ∃ t, step s = .next t ∧ t.fault = false)

/-- Fault entry: a submitted word that leaves FAULT set where it was clear changed exactly FAULT, CAUSE (to a code from 1 to 5), ERRIDX
(to the index of the command) and the recorded command word (to that word), and nothing else (R310). -/
def Obligations.FaultEntryChangesOnlyTheFaultRecord : Prop :=
  ∀ (w : Cmd) (s t : State), s.fault = false → submit w s = .next t → t.fault = true →
    ∃ code : BitVec 8, 1 ≤ code.toNat ∧ code.toNat ≤ 5 ∧ FaultsAs code w s (submit w s)

/-- A command faults with IllegalCommand or with one of the exceptions R308 lists for it, and a command with legal operands other
than INEXT and IPREV not with IllegalCommand. -/
def Obligations.CommandsRaiseOnlyTheirExceptions : Prop :=
  ∀ (i : Instr) (s t : State), s.fault = false → exec i s = .next t → t.fault = true →
    (t.cause = 1 ∨ ∃ x ∈ otherExceptions i, t.cause = x.code) ∧
    (i.wellFormed s.cfg.nbuf = true → i ≠ .inext → i ≠ .iprev → t.cause ≠ 1)

/-- Every command in every state answers a next state: it completes, faults into the faulted state, or is discarded (R355). -/
def Obligations.EveryCommandAnswersANextState : Prop :=
  ∀ (i : Instr) (s : State), ∃ t, exec i s = .next t

/-- A step is refused exactly for a host access to BMEM at an address not below `BMEM_BYTES` (R57, R64, I7). -/
def Obligations.OnlyHostAccessOutsideBmemIsRefused : Prop :=
  ∀ (s : State) (r : Refusal),
    step s = .refused r ↔
      r = .hostAddressOutsideBmem ∧ ∃ a rest, s.cfg.bmemBytes ≤ a ∧
        (s.inputs = .bmemRead a :: rest ∨ ∃ v, s.inputs = .bmemWrite a v :: rest)

/-- The invariant of the block's states holds after every step from a state that meets it: legal slot lengths (R21), the iterator's
bounds (R33), the fault record (R29, R31), RES 0 with NOELEM (R26), and BMEM in canonical form (the last is the model's, log
entry 5). -/
def Obligations.StepKeepsTheStateInvariant : Prop :=
  ∀ (s t : State), s.Inv → step s = .next t → t.Inv

/-- The state after reset meets the invariant, for every legal configuration and whichever reset it is. `State.reset` is that state at the
reference values of R4, which is the model's choice of parameters (log entry 3). -/
def Obligations.ResetStateMeetsTheStateInvariant : Prop :=
  (∃ epoch, State.reset = State.afterReset { nbuf := 8, maxWords := 2048, bmemBytes := 8192 } epoch) ∧
  State.reset.Inv ∧ ∀ (c : Config) (epoch : Nat), c.Legal → (State.afterReset c epoch).Inv

/-- The reset values of R36, for every configuration and whichever reset it is; every BMEM byte is a free draw (log entry 4). -/
def Obligations.ResetStateHasTheListedValues : Prop :=
  ∀ (c : Config) (epoch : Nat) (s : State), s = State.afterReset c epoch →
    s.slots.length = c.nbuf ∧ (∀ a, s.len a = 0 ∧ s.buf a = []) ∧ (∀ a k, storageWord (s.buf a) k = 0) ∧
    s.res = 0 ∧ s.status = 0 ∧ s.fault = false ∧ s.noelem = false ∧ s.cause = 0 ∧ s.cmdCount = 0 ∧
    s.errIdx = 0 ∧ s.errCmdLo = 0 ∧ s.errCmdHi = 0 ∧
    s.iter.itv = false ∧ s.iter.itslot = 0 ∧ s.iter.itf = 0 ∧ s.iter.itb = 0 ∧
    s.hostReg 6 = BitVec.ofNat 32 c.nbuf ∧ s.hostReg 7 = BitVec.ofNat 32 c.maxWords ∧
    s.hostReg 8 = BitVec.ofNat 32 c.bmemBytes ∧
    ∀ a, s.memRead a = Config.bmemDraw epoch a

/-- RESET from any state, the faulted one included, gives every piece of state its reset value, keeps the parameters, and makes BMEM
UNSPECIFIED anew (R350, R36). That the new draw of BMEM is the one numbered `bmemEpoch + 1` is the model's choice (log entry 4). -/
def Obligations.ResetEventRestoresTheResetValues : Prop :=
  ∀ (s : State) (rest : List HostEvent), s.inputs = .reset :: rest →
    ∃ t, step s = .next t ∧ t.cfg = s.cfg ∧ t.inputs = rest ∧
      t.slots.length = s.cfg.nbuf ∧ (∀ a, t.buf a = []) ∧ (∀ a k, storageWord (t.buf a) k = 0) ∧
      t.res = 0 ∧ t.status = 0 ∧ t.fault = false ∧ t.noelem = false ∧ t.cause = 0 ∧ t.cmdCount = 0 ∧
      t.errIdx = 0 ∧ t.errCmdLo = 0 ∧ t.errCmdHi = 0 ∧
      t.iter.itv = false ∧ t.iter.itslot = 0 ∧ t.iter.itf = 0 ∧ t.iter.itb = 0 ∧
      ∀ a, t.memRead a = Config.bmemDraw (s.bmemEpoch + 1) a

/-! ## What every command leaves alone -/

/-- CMDCOUNT counts completed commands modulo 2^32: a submitted word that completes adds 1, one that faults or is discarded adds nothing
(R28). -/
def Obligations.CommandCounterCountsCompletions : Prop :=
  ∀ (w : Cmd) (s t : State), submit w s = .next t →
    (s.fault = false → t.fault = false → t.cmdCount.toNat = (s.cmdCount.toNat + 1) % 2 ^ 32) ∧
    (s.fault = false → t.fault = true → t.cmdCount = s.cmdCount) ∧
    (s.fault = true → t.cmdCount = s.cmdCount)

/-- A command that completes and lists the bound slot among its written slots unbinds the iterator, and INEXT and IPREV then raise
IllegalCommand; a command that writes only other slots, or faults, leaves the iterator unchanged (R193). -/
def Obligations.WritingTheBoundSlotUnbindsTheIterator : Prop :=
  ∀ (i : Instr) (s t : State), s.fault = false → exec i s = .next t →
    (t.fault = false → s.iter.itv = true → s.iter.itslot ∈ slotsWritten i →
      t.iter = { itv := false, itslot := 0, itf := 0, itb := 0 } ∧
      FaultsAs 1 (encode .inext) t (exec .inext t) ∧ FaultsAs 1 (encode .iprev) t (exec .iprev t)) ∧
    (t.fault = false → isIterCommand i = false → ¬ (s.iter.itv = true ∧ s.iter.itslot ∈ slotsWritten i) → t.iter = s.iter) ∧
    (t.fault = true → t.iter = s.iter)

/-- A command changes no slot but those its rule lists as written (R25). -/
def Obligations.CommandsWriteOnlyTheirListedSlots : Prop :=
  ∀ (i : Instr) (s t : State) (c : SlotField), exec i s = .next t → c ∉ slotsWritten i → t.buf c = s.buf c

/-- A command outside the table of R26, a faulting command and a discarded one leave RES and NOELEM unchanged. -/
def Obligations.OnlyListedCommandsWriteTheResult : Prop :=
  ∀ (i : Instr) (s t : State), exec i s = .next t →
    (writesResult i = false ∨ t.fault = true) → t.res = s.res ∧ t.noelem = s.noelem

/-- No command but TOB changes a byte of BMEM, and no command changes the parameters or the model's own fields (R50, R56, R32). -/
def Obligations.OnlyTobWritesBmem : Prop :=
  ∀ (i : Instr) (s t : State), exec i s = .next t →
    ((∀ a, i ≠ .tob a) → ∀ b, t.memRead b = s.memRead b) ∧
    t.cfg = s.cfg ∧ t.bmemEpoch = s.bmemEpoch ∧ t.inputs = s.inputs ∧ t.reply = s.reply

/-- No command reads RES or NOELEM: changing them before a command changes nothing after it but themselves, and nothing at all where
the command completes and writes them (R27). -/
def Obligations.ResultRegisterIsNeverRead : Prop :=
  ∀ (i : Instr) (s : State) (r : Word) (b : Bool), ∃ t u,
    exec i s = .next t ∧ exec i { s with res := r, noelem := b } = .next u ∧
    { u with res := t.res, noelem := t.noelem } = t ∧
    (s.fault = false → t.fault = false → writesResult i = true → u = t)

/-! ## Host registers, the BMEM port, storage words and the byte mapping -/

/-- The host register map: READREG gives the listed register, numbers from 0x09 on read 0, reading changes nothing else, and a host
write has no effect (R30). -/
def Obligations.HostReadsTheRegisterMap : Prop :=
  ∀ (s : State) (rest : List HostEvent),
    (∀ n, s.inputs = .readReg n :: rest → step s = .next { s with inputs := rest, reply := .reg (s.hostReg n) }) ∧
    (∀ n v, s.inputs = .writeReg n v :: rest → step s = .next { s with inputs := rest, reply := .nothing }) ∧
    s.hostReg 0x00 = s.status ∧ s.hostReg 0x01 = s.res ∧ s.hostReg 0x02 = s.cmdCount ∧ s.hostReg 0x03 = s.errIdx ∧
    s.hostReg 0x04 = s.errCmdLo ∧ s.hostReg 0x05 = s.errCmdHi ∧
    (s.cfg.Legal → (s.hostReg 0x06).toNat = s.cfg.nbuf ∧ (s.hostReg 0x07).toNat = s.cfg.maxWords ∧
      (s.hostReg 0x08).toNat = s.cfg.bmemBytes) ∧
    (∀ n : BitVec 8, 9 ≤ n.toNat → s.hostReg n = 0) ∧
    (∀ (c : Config) (epoch : Nat) (n : BitVec 8), n.toNat ≤ 5 → (State.afterReset c epoch).hostReg n = 0)

/-- The STATUS word: FAULT bit 0, NOELEM bit 1, ITV bit 2, CAUSE bits 15:8, every other bit 0; CAUSE is at most 5 and is 0 while FAULT
is 0 in every state that meets the invariant; `fault_o` is FAULT (R29). -/
def Obligations.StatusWordHasTheListedFields : Prop :=
  ∀ (s : State),
    s.status.getLsbD 0 = s.fault ∧ s.status.getLsbD 1 = s.noelem ∧ s.status.getLsbD 2 = s.iter.itv ∧
    s.status.extractLsb' 8 8 = s.cause ∧ s.status.extractLsb' 3 5 = 0 ∧ s.status.extractLsb' 16 16 = 0 ∧
    s.faultO = s.status.getLsbD 0 ∧
    (s.Inv → s.cause.toNat ≤ 5 ∧ (s.fault = false → s.status.extractLsb' 8 8 = 0)) ∧
    State.reset.status = 0

/-- The host's BMEM port: below `BMEM_BYTES` a write stores the byte and changes no other byte and nothing else of the block, a
read returns the byte and changes nothing; elsewhere the host has no move (R64). -/
def Obligations.HostReadsAndWritesBmemBytes : Prop :=
  ∀ (s : State) (a : Nat) (v : Byte) (rest : List HostEvent),
    (s.inputs = .bmemWrite a v :: rest → a < s.cfg.bmemBytes →
      ∃ t, step s = .next t ∧ (∀ b, t.memRead b = if b = a then v else s.memRead b) ∧
        { t with bmem := s.bmem } = { s with inputs := rest, reply := .nothing }) ∧
    (s.inputs = .bmemRead a :: rest → a < s.cfg.bmemBytes →
      step s = .next { s with inputs := rest, reply := .byte (s.memRead a) }) ∧
    (s.cfg.bmemBytes ≤ a →
      (s.inputs = .bmemRead a :: rest → step s = .refused .hostAddressOutsideBmem) ∧
      (s.inputs = .bmemWrite a v :: rest → step s = .refused .hostAddressOutsideBmem))

/-- The storage words of a slot hold its bits below the length and 0 from the length on, and the bits below the length give the
contents back (R23, R24). -/
def Obligations.StorageIsZeroFromTheLengthOn : Prop :=
  ∀ (s : State) (a : SlotField),
    (∀ i, s.len a ≤ i → s.storedBit a i = false) ∧
    s.buf a = (List.range (s.len a)).map (s.storedBit a)

/-- The word-level methods of the boolean-algebra unit give the same contents, the same answer whether a word changed, and the same
reductions as the lane-wise ones (R176). -/
def Obligations.WordLevelMethodsAgreeWithLanes : Prop :=
  ∀ (x y : Bits), x.length = y.length →
    (∀ k, storageWord (List.zipWith (fun p q => p || q) x y) k = storageWord x k ||| storageWord y k) ∧
    (∀ k, storageWord (List.zipWith (fun p q => p && q) x y) k = storageWord x k &&& storageWord y k) ∧
    (∀ k, storageWord (List.zipWith (fun p q => p && !q) x y) k = storageWord x k &&& ~~~ storageWord y k) ∧
    (x ≠ y ↔ ∃ k, k < ceilDiv x.length 32 ∧ storageWord x k ≠ storageWord y k) ∧
    wordsAll x.length (occupiedWords x) = x.all (fun p => p) ∧
    wordsNone (occupiedWords x) = x.all (fun p => !p) ∧
    wordsAny (occupiedWords x) = x.any (fun p => p)

/-- The byte mapping is MSB first in both directions and each direction undoes the other, up to the zero padding of a last partial
byte (R52). -/
def Obligations.ByteMappingIsMsbFirstAndRoundTrips : Prop :=
  (∀ (ys : List Byte) (k : Nat), k < 8 * ys.length →
    bitAt (bitsOfBytes ys) k = (ys.getD (k / 8) 0).getLsbD (7 - k % 8)) ∧
  (∀ (x : Bits) (q t : Nat), q < ceilDiv x.length 8 → t < 8 →
    ((bytesOfBits x).getD q 0).getLsbD (7 - t) = bitAt x (8 * q + t)) ∧
  (∀ ys : List Byte, (bitsOfBytes ys).length = 8 * ys.length ∧ bytesOfBits (bitsOfBytes ys) = ys) ∧
  (∀ x : Bits, (bytesOfBits x).length = ceilDiv x.length 8 ∧
    bitsOfBytes (bytesOfBits x) = x ++ List.replicate ((8 - x.length % 8) % 8) false)

/-! ## Construction, byte marshaling, copy and length -/

/-- NEW empties its slot (R100). -/
def Obligations.NewEmptiesItsSlot : Prop :=
  ∀ (s : State) (a : SlotField), s.Inv → s.fault = false →
    Fields.ofWord (encode (.new a)) = { opc := 0x01, a } ∧
    (a.toNat < s.cfg.nbuf → ∃ t, exec (.new a) s = .next t ∧ t.buf a = [] ∧ WriterFrame [a] s t) ∧
    (s.cfg.nbuf ≤ a.toNat → FaultsAs 1 (encode (.new a)) s (exec (.new a) s))

/-- WCAP empties its slot, or raises CapacityOverflow when more than `MAXBITS` bits are asked for (R101). -/
def Obligations.WcapEmptiesItsSlotOrOverflows : Prop :=
  ∀ (s : State) (a : SlotField) (n : ImmField), s.Inv → s.fault = false →
    Fields.ofWord (encode (.wcap a n)) = { opc := 0x02, a, imm := n } ∧
    (a.toNat < s.cfg.nbuf → n.toNat ≤ s.cfg.maxBits →
      ∃ t, exec (.wcap a n) s = .next t ∧ t.buf a = [] ∧ WriterFrame [a] s t) ∧
    (a.toNat < s.cfg.nbuf → s.cfg.maxBits < n.toNat → FaultsAs 3 (encode (.wcap a n)) s (exec (.wcap a n) s)) ∧
    (s.cfg.nbuf ≤ a.toNat → FaultsAs 1 (encode (.wcap a n)) s (exec (.wcap a n) s))

/-- FILL makes its slot hold `n` copies of the bit, or raises CapacityOverflow (R102). -/
def Obligations.FillReplicatesTheBit : Prop :=
  ∀ (s : State) (a : SlotField) (n : ImmField) (v : Bool), s.Inv → s.fault = false →
    Fields.ofWord (encode (.fill a n v)) = { opc := 0x03, a, imm := n, v } ∧
    (a.toNat < s.cfg.nbuf → n.toNat ≤ s.cfg.maxBits →
      ∃ t, exec (.fill a n v) s = .next t ∧ t.buf a = List.replicate n.toNat v ∧ WriterFrame [a] s t) ∧
    (a.toNat < s.cfg.nbuf → s.cfg.maxBits < n.toNat → FaultsAs 3 (encode (.fill a n v)) s (exec (.fill a n v) s)) ∧
    (s.cfg.nbuf ≤ a.toNat → FaultsAs 1 (encode (.fill a n v)) s (exec (.fill a n v) s))

/-- FROMB loads the bits of BMEM bytes `0` to `imm − 1`, MSB first; PortRangeError goes before CapacityOverflow (R103). -/
def Obligations.FrombLoadsBmemBytes : Prop :=
  ∀ (s : State) (a : SlotField) (n : ImmField), s.Inv → s.fault = false →
    Fields.ofWord (encode (.fromb a n)) = { opc := 0x04, a, imm := n } ∧
    (a.toNat < s.cfg.nbuf → n.toNat ≤ s.cfg.bmemBytes → 8 * n.toNat ≤ s.cfg.maxBits →
      ∃ t, exec (.fromb a n) s = .next t ∧ t.len a = 8 * n.toNat ∧
        (∀ k, k < 8 * n.toNat → bitAt (t.buf a) k = (s.memRead (k / 8)).getLsbD (7 - k % 8)) ∧ WriterFrame [a] s t) ∧
    (a.toNat < s.cfg.nbuf → s.cfg.bmemBytes < n.toNat → FaultsAs 5 (encode (.fromb a n)) s (exec (.fromb a n) s)) ∧
    (a.toNat < s.cfg.nbuf → n.toNat ≤ s.cfg.bmemBytes → s.cfg.maxBits < 8 * n.toNat →
      FaultsAs 3 (encode (.fromb a n)) s (exec (.fromb a n) s)) ∧
    (s.cfg.nbuf ≤ a.toNat → FaultsAs 1 (encode (.fromb a n)) s (exec (.fromb a n) s))

/-- TOB writes BMEM bytes `0` to `ceil_div(len, 8) − 1` with the slot's bits, MSB first and zero-padded, leaves every other byte, and
returns the byte count; PortRangeError when the image exceeds BMEM (R104). -/
def Obligations.TobStoresTheSlotAsBytes : Prop :=
  ∀ (s : State) (a : SlotField), s.Inv → s.fault = false →
    Fields.ofWord (encode (.tob a)) = { opc := 0x05, a } ∧
    (a.toNat < s.cfg.nbuf → ceilDiv (s.len a) 8 ≤ s.cfg.bmemBytes →
      ∃ t, exec (.tob a) s = .next t ∧ Returns (ceilDiv (s.len a) 8) t ∧
        (∀ q k, q < ceilDiv (s.len a) 8 → k < 8 →
          (t.memRead q).getLsbD (7 - k) = if 8 * q + k < s.len a then bitAt (s.buf a) (8 * q + k) else false) ∧
        (∀ q, ceilDiv (s.len a) 8 ≤ q → t.memRead q = s.memRead q) ∧ CommandFrame [] s t ∧ SameIter s t) ∧
    (a.toNat < s.cfg.nbuf → s.cfg.bmemBytes < ceilDiv (s.len a) 8 → FaultsAs 5 (encode (.tob a)) s (exec (.tob a) s)) ∧
    (s.cfg.nbuf ≤ a.toNat → FaultsAs 1 (encode (.tob a)) s (exec (.tob a) s))

/-- CLONE copies slot `b` into slot `a`, `a = b` included (R105). -/
def Obligations.CloneCopiesTheSlot : Prop :=
  ∀ (s : State) (a b : SlotField), s.Inv → s.fault = false →
    Fields.ofWord (encode (.clone a b)) = { opc := 0x06, a, b } ∧
    (a.toNat < s.cfg.nbuf → b.toNat < s.cfg.nbuf →
      ∃ t, exec (.clone a b) s = .next t ∧ t.buf a = s.buf b ∧ t.buf b = s.buf b ∧ WriterFrame [a] s t) ∧
    (s.cfg.nbuf ≤ a.toNat ∨ s.cfg.nbuf ≤ b.toNat → FaultsAs 1 (encode (.clone a b)) s (exec (.clone a b) s))

/-- LEN returns the slot's length (R106). -/
def Obligations.LenReturnsTheLength : Prop :=
  ∀ (s : State) (a : SlotField), s.Inv → s.fault = false →
    Fields.ofWord (encode (.len a)) = { opc := 0x07, a } ∧
    (a.toNat < s.cfg.nbuf → ∃ t, exec (.len a) s = .next t ∧ Returns (s.len a) t ∧ ReaderFrame s t) ∧
    (s.cfg.nbuf ≤ a.toNat → FaultsAs 1 (encode (.len a)) s (exec (.len a) s))

/-! ## Bit access -/

/-- GET returns the bit at an index below the length and raises BoundsError at any other (R130). -/
def Obligations.GetReturnsTheBitOrRaisesBounds : Prop :=
  ∀ (s : State) (a : SlotField) (i : ImmField), s.Inv → s.fault = false →
    Fields.ofWord (encode (.get a i)) = { opc := 0x10, a, imm := i } ∧
    (a.toNat < s.cfg.nbuf → i.toNat < s.len a →
      ∃ t, exec (.get a i) s = .next t ∧ Returns (bitAt (s.buf a) i.toNat).toNat t ∧ ReaderFrame s t) ∧
    (a.toNat < s.cfg.nbuf → s.len a ≤ i.toNat → FaultsAs 2 (encode (.get a i)) s (exec (.get a i) s)) ∧
    (s.cfg.nbuf ≤ a.toNat → FaultsAs 1 (encode (.get a i)) s (exec (.get a i) s))

/-- SET replaces the bit at an index below the length, keeps every other bit and the length, and raises BoundsError at any other index
(R131). -/
def Obligations.SetReplacesOneBitOrRaisesBounds : Prop :=
  ∀ (s : State) (a : SlotField) (i : ImmField) (v : Bool), s.Inv → s.fault = false →
    Fields.ofWord (encode (.set a i v)) = { opc := 0x11, a, imm := i, v } ∧
    (a.toNat < s.cfg.nbuf → i.toNat < s.len a →
      ∃ t, exec (.set a i v) s = .next t ∧ t.len a = s.len a ∧
        (∀ k, k < s.len a → bitAt (t.buf a) k = if k = i.toNat then v else bitAt (s.buf a) k) ∧ WriterFrame [a] s t) ∧
    (a.toNat < s.cfg.nbuf → s.len a ≤ i.toNat → FaultsAs 2 (encode (.set a i v)) s (exec (.set a i v) s)) ∧
    (s.cfg.nbuf ≤ a.toNat → FaultsAs 1 (encode (.set a i v)) s (exec (.set a i v) s))

/-- PUSH appends the bit, or raises CapacityOverflow on a full slot (R132). -/
def Obligations.PushAppendsOneBit : Prop :=
  ∀ (s : State) (a : SlotField) (v : Bool), s.Inv → s.fault = false →
    Fields.ofWord (encode (.push a v)) = { opc := 0x12, a, v } ∧
    (a.toNat < s.cfg.nbuf → s.len a < s.cfg.maxBits →
      ∃ t, exec (.push a v) s = .next t ∧ t.buf a = s.buf a ++ [v] ∧ WriterFrame [a] s t) ∧
    (a.toNat < s.cfg.nbuf → s.len a = s.cfg.maxBits → FaultsAs 3 (encode (.push a v)) s (exec (.push a v) s)) ∧
    (s.cfg.nbuf ≤ a.toNat → FaultsAs 1 (encode (.push a v)) s (exec (.push a v) s))

/-- POP takes the tail bit off and returns it; on an empty slot it reports no element and is no fault. The slot counts as written in
both cases (R133). -/
def Obligations.PopTakesTheTailBit : Prop :=
  ∀ (s : State) (a : SlotField), s.Inv → s.fault = false →
    Fields.ofWord (encode (.pop a)) = { opc := 0x13, a } ∧
    (a.toNat < s.cfg.nbuf →
      ∃ t, exec (.pop a) s = .next t ∧
        (s.buf a = [] → t.buf a = [] ∧ ReturnsNoElement t) ∧
        (∀ x v, s.buf a = x ++ [v] → t.buf a = x ∧ Returns v.toNat t) ∧
        CommandFrame [a] s t ∧ SameBmem s t ∧ IterAfterWriting [a] s t) ∧
    (s.cfg.nbuf ≤ a.toNat → FaultsAs 1 (encode (.pop a)) s (exec (.pop a) s))

/-! ## Structural operations -/

/-- APPEND moves the bits of `b` onto the tail of `a` and empties `b`; CapacityOverflow when they do not fit, IllegalCommand on `a = b`
(R150). -/
def Obligations.AppendMovesBitsOntoTheTail : Prop :=
  ∀ (s : State) (a b : SlotField), s.Inv → s.fault = false →
    Fields.ofWord (encode (.append a b)) = { opc := 0x20, a, b } ∧
    (a.toNat < s.cfg.nbuf → b.toNat < s.cfg.nbuf → a ≠ b → s.len a + s.len b ≤ s.cfg.maxBits →
      ∃ t, exec (.append a b) s = .next t ∧ t.buf a = s.buf a ++ s.buf b ∧ t.buf b = [] ∧ WriterFrame [a, b] s t) ∧
    (a.toNat < s.cfg.nbuf → b.toNat < s.cfg.nbuf → a ≠ b → s.cfg.maxBits < s.len a + s.len b →
      FaultsAs 3 (encode (.append a b)) s (exec (.append a b) s)) ∧
    (s.cfg.nbuf ≤ a.toNat ∨ s.cfg.nbuf ≤ b.toNat ∨ a = b → FaultsAs 1 (encode (.append a b)) s (exec (.append a b) s))

/-- SPLIT leaves the first `at` bits in `a` and puts the rest in `b`; BoundsError beyond the length, IllegalCommand on `a = b`
(R151). -/
def Obligations.SplitCutsTheSlotInTwo : Prop :=
  ∀ (s : State) (a b : SlotField) (n : ImmField), s.Inv → s.fault = false →
    Fields.ofWord (encode (.split a b n)) = { opc := 0x21, a, b, imm := n } ∧
    (a.toNat < s.cfg.nbuf → b.toNat < s.cfg.nbuf → a ≠ b → n.toNat ≤ s.len a →
      ∃ t, exec (.split a b n) s = .next t ∧ t.len a = n.toNat ∧ t.buf a ++ t.buf b = s.buf a ∧ WriterFrame [a, b] s t) ∧
    (a.toNat < s.cfg.nbuf → b.toNat < s.cfg.nbuf → a ≠ b → s.len a < n.toNat →
      FaultsAs 2 (encode (.split a b n)) s (exec (.split a b n) s)) ∧
    (s.cfg.nbuf ≤ a.toNat ∨ s.cfg.nbuf ≤ b.toNat ∨ a = b →
      FaultsAs 1 (encode (.split a b n)) s (exec (.split a b n) s))

/-- TRUNC keeps the first `imm` bits where there are more, and the contents where there are not; the slot counts as written either
way (R152). -/
def Obligations.TruncShortensAndNeverLengthens : Prop :=
  ∀ (s : State) (a : SlotField) (n : ImmField), s.Inv → s.fault = false →
    Fields.ofWord (encode (.trunc a n)) = { opc := 0x22, a, imm := n } ∧
    (a.toNat < s.cfg.nbuf →
      ∃ t, exec (.trunc a n) s = .next t ∧ t.len a = min n.toNat (s.len a) ∧
        (∀ k, k < t.len a → bitAt (t.buf a) k = bitAt (s.buf a) k) ∧ WriterFrame [a] s t) ∧
    (s.cfg.nbuf ≤ a.toNat → FaultsAs 1 (encode (.trunc a n)) s (exec (.trunc a n) s))

/-- GROW appends `n` copies of the bit, or raises CapacityOverflow (R153). -/
def Obligations.GrowAppendsCopiesOfTheBit : Prop :=
  ∀ (s : State) (a : SlotField) (n : ImmField) (v : Bool), s.Inv → s.fault = false →
    Fields.ofWord (encode (.grow a n v)) = { opc := 0x23, a, imm := n, v } ∧
    (a.toNat < s.cfg.nbuf → s.len a + n.toNat ≤ s.cfg.maxBits →
      ∃ t, exec (.grow a n v) s = .next t ∧ t.buf a = s.buf a ++ List.replicate n.toNat v ∧ WriterFrame [a] s t) ∧
    (a.toNat < s.cfg.nbuf → s.cfg.maxBits < s.len a + n.toNat → FaultsAs 3 (encode (.grow a n v)) s (exec (.grow a n v) s)) ∧
    (s.cfg.nbuf ≤ a.toNat → FaultsAs 1 (encode (.grow a n v)) s (exec (.grow a n v) s))

/-! ## Boolean algebra -/

/-- UNION is lane-wise OR into `a`; RES is 1 exactly when some lane had 0 in `a` and 1 in `b`; LengthMismatch on unequal lengths
(R170). -/
def Obligations.UnionOrsLaneByLane : Prop :=
  ∀ (s : State) (a b : SlotField), s.Inv → s.fault = false →
    Fields.ofWord (encode (.union a b)) = { opc := 0x30, a, b } ∧
    (a.toNat < s.cfg.nbuf → b.toNat < s.cfg.nbuf → s.len a = s.len b →
      ∃ t, exec (.union a b) s = .next t ∧ t.len a = s.len a ∧
        (∀ i, i < s.len a → bitAt (t.buf a) i = (bitAt (s.buf a) i || bitAt (s.buf b) i)) ∧
        ((∃ i, i < s.len a ∧ bitAt (s.buf a) i = false ∧ bitAt (s.buf b) i = true) → Returns 1 t) ∧
        ((¬ ∃ i, i < s.len a ∧ bitAt (s.buf a) i = false ∧ bitAt (s.buf b) i = true) → Returns 0 t) ∧
        CommandFrame [a] s t ∧ SameBmem s t ∧ IterAfterWriting [a] s t) ∧
    (a.toNat < s.cfg.nbuf → b.toNat < s.cfg.nbuf → s.len a ≠ s.len b →
      FaultsAs 4 (encode (.union a b)) s (exec (.union a b) s)) ∧
    (s.cfg.nbuf ≤ a.toNat ∨ s.cfg.nbuf ≤ b.toNat → FaultsAs 1 (encode (.union a b)) s (exec (.union a b) s))

/-- INTER is lane-wise AND into `a`; RES is 1 exactly when some lane had 1 in `a` and 0 in `b`; LengthMismatch on unequal lengths
(R171). -/
def Obligations.InterAndsLaneByLane : Prop :=
  ∀ (s : State) (a b : SlotField), s.Inv → s.fault = false →
    Fields.ofWord (encode (.inter a b)) = { opc := 0x31, a, b } ∧
    (a.toNat < s.cfg.nbuf → b.toNat < s.cfg.nbuf → s.len a = s.len b →
      ∃ t, exec (.inter a b) s = .next t ∧ t.len a = s.len a ∧
        (∀ i, i < s.len a → bitAt (t.buf a) i = (bitAt (s.buf a) i && bitAt (s.buf b) i)) ∧
        ((∃ i, i < s.len a ∧ bitAt (s.buf a) i = true ∧ bitAt (s.buf b) i = false) → Returns 1 t) ∧
        ((¬ ∃ i, i < s.len a ∧ bitAt (s.buf a) i = true ∧ bitAt (s.buf b) i = false) → Returns 0 t) ∧
        CommandFrame [a] s t ∧ SameBmem s t ∧ IterAfterWriting [a] s t) ∧
    (a.toNat < s.cfg.nbuf → b.toNat < s.cfg.nbuf → s.len a ≠ s.len b →
      FaultsAs 4 (encode (.inter a b)) s (exec (.inter a b) s)) ∧
    (s.cfg.nbuf ≤ a.toNat ∨ s.cfg.nbuf ≤ b.toNat → FaultsAs 1 (encode (.inter a b)) s (exec (.inter a b) s))

/-- DIFF is lane-wise AND-NOT into `a`; RES is 1 exactly when some lane had 1 in both; LengthMismatch on unequal lengths (R172). -/
def Obligations.DiffAndNotsLaneByLane : Prop :=
  ∀ (s : State) (a b : SlotField), s.Inv → s.fault = false →
    Fields.ofWord (encode (.diff a b)) = { opc := 0x32, a, b } ∧
    (a.toNat < s.cfg.nbuf → b.toNat < s.cfg.nbuf → s.len a = s.len b →
      ∃ t, exec (.diff a b) s = .next t ∧ t.len a = s.len a ∧
        (∀ i, i < s.len a → bitAt (t.buf a) i = (bitAt (s.buf a) i && !bitAt (s.buf b) i)) ∧
        ((∃ i, i < s.len a ∧ bitAt (s.buf a) i = true ∧ bitAt (s.buf b) i = true) → Returns 1 t) ∧
        ((¬ ∃ i, i < s.len a ∧ bitAt (s.buf a) i = true ∧ bitAt (s.buf b) i = true) → Returns 0 t) ∧
        CommandFrame [a] s t ∧ SameBmem s t ∧ IterAfterWriting [a] s t) ∧
    (a.toNat < s.cfg.nbuf → b.toNat < s.cfg.nbuf → s.len a ≠ s.len b →
      FaultsAs 4 (encode (.diff a b)) s (exec (.diff a b) s)) ∧
    (s.cfg.nbuf ≤ a.toNat ∨ s.cfg.nbuf ≤ b.toNat → FaultsAs 1 (encode (.diff a b)) s (exec (.diff a b) s))

/-- ALL, NONE and ANY return whether every bit is 1, no bit is 1, some bit is 1; of an empty slot 1, 1 and 0 (R173, R174, R175). -/
def Obligations.ReductionsTestTheBits : Prop :=
  ∀ (s : State) (a : SlotField), s.Inv → s.fault = false →
    Fields.ofWord (encode (.all a)) = { opc := 0x34, a } ∧
    Fields.ofWord (encode (.none a)) = { opc := 0x35, a } ∧
    Fields.ofWord (encode (.any a)) = { opc := 0x36, a } ∧
    (a.toNat < s.cfg.nbuf →
      (∃ t, exec (.all a) s = .next t ∧ ReaderFrame s t ∧
        ((∀ i, i < s.len a → bitAt (s.buf a) i = true) → Returns 1 t) ∧
        ((∃ i, i < s.len a ∧ bitAt (s.buf a) i = false) → Returns 0 t)) ∧
      (∃ t, exec (.none a) s = .next t ∧ ReaderFrame s t ∧
        ((∀ i, i < s.len a → bitAt (s.buf a) i = false) → Returns 1 t) ∧
        ((∃ i, i < s.len a ∧ bitAt (s.buf a) i = true) → Returns 0 t)) ∧
      (∃ t, exec (.any a) s = .next t ∧ ReaderFrame s t ∧
        ((∃ i, i < s.len a ∧ bitAt (s.buf a) i = true) → Returns 1 t) ∧
        ((∀ i, i < s.len a → bitAt (s.buf a) i = false) → Returns 0 t))) ∧
    (s.cfg.nbuf ≤ a.toNat →
      FaultsAs 1 (encode (.all a)) s (exec (.all a) s) ∧
      FaultsAs 1 (encode (.none a)) s (exec (.none a) s) ∧
      FaultsAs 1 (encode (.any a)) s (exec (.any a) s))

/-! ## Iteration -/

/-- ITER binds the iterator to the whole of a slot, or restarts it (R190). -/
def Obligations.IterBindsTheIterator : Prop :=
  ∀ (s : State) (a : SlotField), s.Inv → s.fault = false →
    Fields.ofWord (encode (.iter a)) = { opc := 0x40, a } ∧
    (a.toNat < s.cfg.nbuf →
      ∃ t, exec (.iter a) s = .next t ∧ t.iter.itv = true ∧ t.iter.itslot = a ∧ t.iter.itf = 0 ∧
        t.iter.itb.toNat = s.len a ∧ CommandFrame [] s t ∧ SameResult s t ∧ SameBmem s t) ∧
    (s.cfg.nbuf ≤ a.toNat → FaultsAs 1 (encode (.iter a)) s (exec (.iter a) s))

/-- INEXT returns the bit at the front cursor and moves it forward; no element once the cursors have met; IllegalCommand with no valid
iterator (R191). -/
def Obligations.InextYieldsTheFrontBit : Prop :=
  ∀ (s : State), s.Inv → s.fault = false →
    Fields.ofWord (encode .inext) = { opc := 0x41 } ∧
    (s.iter.itv = true → s.iter.itf ≠ s.iter.itb →
      ∃ t, exec .inext s = .next t ∧ s.iter.itf.toNat < s.len s.iter.itslot ∧
        Returns (bitAt (s.buf s.iter.itslot) s.iter.itf.toNat).toNat t ∧
        t.iter.itf.toNat = s.iter.itf.toNat + 1 ∧ t.iter.itb = s.iter.itb ∧ t.iter.itv = true ∧
        t.iter.itslot = s.iter.itslot ∧ CommandFrame [] s t ∧ SameBmem s t) ∧
    (s.iter.itv = true → s.iter.itf = s.iter.itb →
      ∃ t, exec .inext s = .next t ∧ ReturnsNoElement t ∧ ReaderFrame s t) ∧
    (s.iter.itv = false → FaultsAs 1 (encode .inext) s (exec .inext s))

/-- IPREV moves the back cursor backward and returns the bit there; no element once the cursors have met; IllegalCommand with no valid
iterator (R192). -/
def Obligations.IprevYieldsTheBackBit : Prop :=
  ∀ (s : State), s.Inv → s.fault = false →
    Fields.ofWord (encode .iprev) = { opc := 0x42 } ∧
    (s.iter.itv = true → s.iter.itf ≠ s.iter.itb →
      ∃ t, exec .iprev s = .next t ∧ t.iter.itb.toNat + 1 = s.iter.itb.toNat ∧
        t.iter.itb.toNat < s.len s.iter.itslot ∧
        Returns (bitAt (s.buf s.iter.itslot) t.iter.itb.toNat).toNat t ∧
        t.iter.itf = s.iter.itf ∧ t.iter.itv = true ∧
        t.iter.itslot = s.iter.itslot ∧ CommandFrame [] s t ∧ SameBmem s t) ∧
    (s.iter.itv = true → s.iter.itf = s.iter.itb →
      ∃ t, exec .iprev s = .next t ∧ ReturnsNoElement t ∧ ReaderFrame s t) ∧
    (s.iter.itv = false → FaultsAs 1 (encode .iprev) s (exec .iprev s))

/-! ## The Hamming codec -/

/-- HENC: slot `a` becomes `G` codeword blocks of `L` bits, block `g` the encoding of bits `g·D` to `g·D + D − 1` of slot `b`, which reads
0 past its end; CapacityOverflow when `G·L` exceeds `MAXBITS` (R204). -/
def Obligations.HencEncodesEveryGroup : Prop :=
  ∀ (s : State) (a b : SlotField) (p : ParamField) (L D G : Nat), s.Inv → s.fault = false →
    L = 2 ^ p.toNat - 1 → D = 2 ^ p.toNat - p.toNat - 1 → G = ceilDiv (s.len b) D →
    Fields.ofWord (encode (.henc a b p)) = { opc := 0x50, a, b, p } ∧
    (a.toNat < s.cfg.nbuf → b.toNat < s.cfg.nbuf → 2 ≤ p.toNat → G * L ≤ s.cfg.maxBits →
      ∃ t, exec (.henc a b p) s = .next t ∧ t.len a = G * L ∧
        (∀ g, g < G → slice (t.buf a) (g * L) (g * L + L) =
          encodeBlock p.toNat ((List.range D).map fun k => bitAt (s.buf b) (g * D + k))) ∧
        WriterFrame [a] s t) ∧
    (a.toNat < s.cfg.nbuf → b.toNat < s.cfg.nbuf → 2 ≤ p.toNat → s.cfg.maxBits < G * L →
      FaultsAs 3 (encode (.henc a b p)) s (exec (.henc a b p) s)) ∧
    (s.cfg.nbuf ≤ a.toNat ∨ s.cfg.nbuf ≤ b.toNat ∨ p.toNat < 2 →
      FaultsAs 1 (encode (.henc a b p)) s (exec (.henc a b p) s))

/-- HDEC: slot `a` becomes the decoded groups of the whole blocks of slot `b`, in order; a trailing part is discarded, and there is no
exception but IllegalCommand (R206). -/
def Obligations.HdecDecodesEveryWholeBlock : Prop :=
  ∀ (s : State) (a b : SlotField) (p : ParamField) (L D G : Nat), s.Inv → s.fault = false →
    L = 2 ^ p.toNat - 1 → D = 2 ^ p.toNat - p.toNat - 1 → G = s.len b / L →
    Fields.ofWord (encode (.hdec a b p)) = { opc := 0x51, a, b, p } ∧
    (a.toNat < s.cfg.nbuf → b.toNat < s.cfg.nbuf → 2 ≤ p.toNat →
      ∃ t, exec (.hdec a b p) s = .next t ∧ t.len a = G * D ∧
        (∀ g, g < G → slice (t.buf a) (g * D) (g * D + D) =
          decodeBlock p.toNat (slice (s.buf b) (g * L) (g * L + L))) ∧
        WriterFrame [a] s t) ∧
    (s.cfg.nbuf ≤ a.toNat ∨ s.cfg.nbuf ≤ b.toNat ∨ p.toNat < 2 →
      FaultsAs 1 (encode (.hdec a b p)) s (exec (.hdec a b p) s))

/-- HSYN returns the syndrome of block `k`; BoundsError when the block does not lie wholly inside the slot (R207). -/
def Obligations.HsynReturnsTheBlockSyndrome : Prop :=
  ∀ (s : State) (a : SlotField) (p : ParamField) (k : ImmField) (L : Nat), s.Inv → s.fault = false →
    L = 2 ^ p.toNat - 1 →
    Fields.ofWord (encode (.hsyn a p k)) = { opc := 0x52, a, p, imm := k } ∧
    (a.toNat < s.cfg.nbuf → 2 ≤ p.toNat → (k.toNat + 1) * L ≤ s.len a →
      ∃ t, exec (.hsyn a p k) s = .next t ∧
        Returns (check p.toNat (slice (s.buf a) (k.toNat * L) (k.toNat * L + L))) t ∧ ReaderFrame s t) ∧
    (a.toNat < s.cfg.nbuf → 2 ≤ p.toNat → s.len a < (k.toNat + 1) * L →
      FaultsAs 2 (encode (.hsyn a p k)) s (exec (.hsyn a p k) s)) ∧
    (s.cfg.nbuf ≤ a.toNat ∨ p.toNat < 2 → FaultsAs 1 (encode (.hsyn a p k)) s (exec (.hsyn a p k) s))

/-- An encoded block has `L` bits, carries the data bits at the data positions in order, and holds at each parity position `2^n` the XOR
of the bits at the data positions `j` with `j & 2^n ≠ 0` (R202, R203 consequence (a)). There are `D` data positions. -/
def Obligations.EncodedBlockHoldsDataAndParity : Prop :=
  ∀ (p : Nat) (g : Bits), 2 ≤ p → g.length = groupLen p →
    (encodeBlock p g).length = blockLen p ∧ (dataPositions p).length = groupLen p ∧
    (∀ t, t < groupLen p → bitAt (encodeBlock p g) ((dataPositions p).getD t 0 - 1) = bitAt g t) ∧
    (∀ n, n < p → bitAt (encodeBlock p g) (2 ^ n - 1) =
      ((dataPositions p).filter fun j => decide (j &&& 2 ^ n ≠ 0)).foldl
        (fun acc j => Bool.xor acc (bitAt (encodeBlock p g) (j - 1))) false)

/-- The syndrome of a block is the XOR of the positions of its set bits, so that of an encoded block is 0 and that of an encoded block
with one position `e` flipped is `e` (R203 consequence (c)). -/
def Obligations.SyndromeIsTheXorOfSetPositions : Prop :=
  ∀ (p : Nat), 2 ≤ p →
    (∀ c : Bits, c.length = blockLen p → check p c < 2 ^ p ∧
      check p c = ((List.range' 1 (blockLen p)).filter fun j => bitAt c (j - 1)).foldl (fun S j => S ^^^ j) 0) ∧
    (∀ g : Bits, g.length = groupLen p → check p (encodeBlock p g) = 0) ∧
    (∀ (g : Bits) (e : Nat), g.length = groupLen p → 1 ≤ e → e ≤ blockLen p →
      check p ((encodeBlock p g).set (e - 1) (!bitAt (encodeBlock p g) (e - 1))) = e)

/-- A data group is decoded back from its codeword, and from its codeword with any one position flipped (R209, single-bit-flip
correction). -/
def Obligations.SingleBitFlipIsCorrected : Prop :=
  ∀ (p : Nat) (g : Bits), 2 ≤ p → g.length = groupLen p →
    decodeBlock p (encodeBlock p g) = g ∧
    ∀ e, 1 ≤ e → e ≤ blockLen p →
      decodeBlock p ((encodeBlock p g).set (e - 1) (!bitAt (encodeBlock p g) (e - 1))) = g

/-- Encoding and then decoding a sequence with the same parameter gives it back with the zero bits that padded its last group (R209,
round trip on bits; C2). -/
def Obligations.HammingRoundTripPadsWithZeros : Prop :=
  ∀ (p : Nat) (x : Bits), 2 ≤ p →
    hammingDecode p (hammingEncode p x) =
      x ++ List.replicate (ceilDiv x.length (groupLen p) * groupLen p - x.length) false

/-- The byte codec of R208, `decode` after `encode` with the same parameter: the input with `k` zero bytes after it, where
`k = ceil_div(G·D, 8) − len` and `G = ceil_div(8·len, D)`; `k` is 0 for `p` 2 and 3 (R209, round trip on bytes; C2). -/
def Obligations.HammingByteRoundTripAddsOnlyZeroBytes : Prop :=
  ∀ (p : Nat) (ys : List Byte), 2 ≤ p →
    bytesOfBits (hammingDecode p (bitsOfBytes (bytesOfBits (hammingEncode p (bitsOfBytes ys))))) =
      ys ++ List.replicate (ceilDiv (ceilDiv (8 * ys.length) (groupLen p) * groupLen p) 8 - ys.length) 0 ∧
    (p = 2 ∨ p = 3 → ceilDiv (ceilDiv (8 * ys.length) (groupLen p) * groupLen p) 8 - ys.length = 0)

/-- The smallest code triples each bit, its syndrome is `(c1 ⊕ c3) + 2·(c2 ⊕ c3)`, and a block decodes to its majority bit (R211). -/
def Obligations.SmallestCodeTriplesAndVotes : Prop :=
  blockLen 2 = 3 ∧ groupLen 2 = 1 ∧ dataPositions 2 = [3] ∧
  ∀ d c1 c2 c3 : Bool,
    encodeBlock 2 [d] = [d, d, d] ∧
    check 2 [c1, c2, c3] = (Bool.xor c1 c3).toNat * 1 + (Bool.xor c2 c3).toNat * 2 ∧
    decodeBlock 2 [c1, c2, c3] = [decide (2 ≤ c1.toNat + c2.toNat + c3.toNat)]
end

