-- ==== Sys2Proof/Laws/State.lean ====
section
/-! SUPPORT. What each update of the state does to each field, one lemma per field, true by unfolding the update once. -/

namespace Sys2Proof.Machine

/-! A slot write changes `slots` and perhaps the iterator. -/

@[simp] theorem State.writeBuf_cfg (s : State) (a : SlotField) (x : Bits) : (s.writeBuf a x).cfg = s.cfg := rfl
@[simp] theorem State.writeBuf_slots (s : State) (a : SlotField) (x : Bits) : (s.writeBuf a x).slots = s.slots.set a.toNat x := rfl
@[simp] theorem State.writeBuf_res (s : State) (a : SlotField) (x : Bits) : (s.writeBuf a x).res = s.res := rfl
@[simp] theorem State.writeBuf_noelem (s : State) (a : SlotField) (x : Bits) : (s.writeBuf a x).noelem = s.noelem := rfl
@[simp] theorem State.writeBuf_cmdCount (s : State) (a : SlotField) (x : Bits) : (s.writeBuf a x).cmdCount = s.cmdCount := rfl
@[simp] theorem State.writeBuf_fault (s : State) (a : SlotField) (x : Bits) : (s.writeBuf a x).fault = s.fault := rfl
@[simp] theorem State.writeBuf_cause (s : State) (a : SlotField) (x : Bits) : (s.writeBuf a x).cause = s.cause := rfl
@[simp] theorem State.writeBuf_errIdx (s : State) (a : SlotField) (x : Bits) : (s.writeBuf a x).errIdx = s.errIdx := rfl
@[simp] theorem State.writeBuf_errCmdLo (s : State) (a : SlotField) (x : Bits) : (s.writeBuf a x).errCmdLo = s.errCmdLo := rfl
@[simp] theorem State.writeBuf_errCmdHi (s : State) (a : SlotField) (x : Bits) : (s.writeBuf a x).errCmdHi = s.errCmdHi := rfl
@[simp] theorem State.writeBuf_iter (s : State) (a : SlotField) (x : Bits) : (s.writeBuf a x).iter = if s.iter.itv = true ∧ s.iter.itslot = a then Iter.unbound else s.iter := rfl
@[simp] theorem State.writeBuf_bmem (s : State) (a : SlotField) (x : Bits) : (s.writeBuf a x).bmem = s.bmem := rfl
@[simp] theorem State.writeBuf_bmemEpoch (s : State) (a : SlotField) (x : Bits) : (s.writeBuf a x).bmemEpoch = s.bmemEpoch := rfl
@[simp] theorem State.writeBuf_inputs (s : State) (a : SlotField) (x : Bits) : (s.writeBuf a x).inputs = s.inputs := rfl
@[simp] theorem State.writeBuf_reply (s : State) (a : SlotField) (x : Bits) : (s.writeBuf a x).reply = s.reply := rfl

/-! A result changes RES and NOELEM. -/

@[simp] theorem State.withRes_cfg (s : State) (n : Nat) : (s.withRes n).cfg = s.cfg := rfl
@[simp] theorem State.withRes_slots (s : State) (n : Nat) : (s.withRes n).slots = s.slots := rfl
@[simp] theorem State.withRes_res (s : State) (n : Nat) : (s.withRes n).res = BitVec.ofNat 32 n := rfl
@[simp] theorem State.withRes_noelem (s : State) (n : Nat) : (s.withRes n).noelem = false := rfl
@[simp] theorem State.withRes_cmdCount (s : State) (n : Nat) : (s.withRes n).cmdCount = s.cmdCount := rfl
@[simp] theorem State.withRes_fault (s : State) (n : Nat) : (s.withRes n).fault = s.fault := rfl
@[simp] theorem State.withRes_cause (s : State) (n : Nat) : (s.withRes n).cause = s.cause := rfl
@[simp] theorem State.withRes_errIdx (s : State) (n : Nat) : (s.withRes n).errIdx = s.errIdx := rfl
@[simp] theorem State.withRes_errCmdLo (s : State) (n : Nat) : (s.withRes n).errCmdLo = s.errCmdLo := rfl
@[simp] theorem State.withRes_errCmdHi (s : State) (n : Nat) : (s.withRes n).errCmdHi = s.errCmdHi := rfl
@[simp] theorem State.withRes_iter (s : State) (n : Nat) : (s.withRes n).iter = s.iter := rfl
@[simp] theorem State.withRes_bmem (s : State) (n : Nat) : (s.withRes n).bmem = s.bmem := rfl
@[simp] theorem State.withRes_bmemEpoch (s : State) (n : Nat) : (s.withRes n).bmemEpoch = s.bmemEpoch := rfl
@[simp] theorem State.withRes_inputs (s : State) (n : Nat) : (s.withRes n).inputs = s.inputs := rfl
@[simp] theorem State.withRes_reply (s : State) (n : Nat) : (s.withRes n).reply = s.reply := rfl

/-! The report of no element changes RES and NOELEM. -/

@[simp] theorem State.withNoElement_cfg (s : State) : (s.withNoElement).cfg = s.cfg := rfl
@[simp] theorem State.withNoElement_slots (s : State) : (s.withNoElement).slots = s.slots := rfl
@[simp] theorem State.withNoElement_res (s : State) : (s.withNoElement).res = 0 := rfl
@[simp] theorem State.withNoElement_noelem (s : State) : (s.withNoElement).noelem = true := rfl
@[simp] theorem State.withNoElement_cmdCount (s : State) : (s.withNoElement).cmdCount = s.cmdCount := rfl
@[simp] theorem State.withNoElement_fault (s : State) : (s.withNoElement).fault = s.fault := rfl
@[simp] theorem State.withNoElement_cause (s : State) : (s.withNoElement).cause = s.cause := rfl
@[simp] theorem State.withNoElement_errIdx (s : State) : (s.withNoElement).errIdx = s.errIdx := rfl
@[simp] theorem State.withNoElement_errCmdLo (s : State) : (s.withNoElement).errCmdLo = s.errCmdLo := rfl
@[simp] theorem State.withNoElement_errCmdHi (s : State) : (s.withNoElement).errCmdHi = s.errCmdHi := rfl
@[simp] theorem State.withNoElement_iter (s : State) : (s.withNoElement).iter = s.iter := rfl
@[simp] theorem State.withNoElement_bmem (s : State) : (s.withNoElement).bmem = s.bmem := rfl
@[simp] theorem State.withNoElement_bmemEpoch (s : State) : (s.withNoElement).bmemEpoch = s.bmemEpoch := rfl
@[simp] theorem State.withNoElement_inputs (s : State) : (s.withNoElement).inputs = s.inputs := rfl
@[simp] theorem State.withNoElement_reply (s : State) : (s.withNoElement).reply = s.reply := rfl

/-! Completion changes CMDCOUNT. -/

@[simp] theorem State.counted_cfg (s : State) : (s.counted).cfg = s.cfg := rfl
@[simp] theorem State.counted_slots (s : State) : (s.counted).slots = s.slots := rfl
@[simp] theorem State.counted_res (s : State) : (s.counted).res = s.res := rfl
@[simp] theorem State.counted_noelem (s : State) : (s.counted).noelem = s.noelem := rfl
@[simp] theorem State.counted_cmdCount (s : State) : (s.counted).cmdCount = s.cmdCount + 1 := rfl
@[simp] theorem State.counted_fault (s : State) : (s.counted).fault = s.fault := rfl
@[simp] theorem State.counted_cause (s : State) : (s.counted).cause = s.cause := rfl
@[simp] theorem State.counted_errIdx (s : State) : (s.counted).errIdx = s.errIdx := rfl
@[simp] theorem State.counted_errCmdLo (s : State) : (s.counted).errCmdLo = s.errCmdLo := rfl
@[simp] theorem State.counted_errCmdHi (s : State) : (s.counted).errCmdHi = s.errCmdHi := rfl
@[simp] theorem State.counted_iter (s : State) : (s.counted).iter = s.iter := rfl
@[simp] theorem State.counted_bmem (s : State) : (s.counted).bmem = s.bmem := rfl
@[simp] theorem State.counted_bmemEpoch (s : State) : (s.counted).bmemEpoch = s.bmemEpoch := rfl
@[simp] theorem State.counted_inputs (s : State) : (s.counted).inputs = s.inputs := rfl
@[simp] theorem State.counted_reply (s : State) : (s.counted).reply = s.reply := rfl

/-! A byte write changes BMEM. -/

@[simp] theorem State.memWrite_cfg (s : State) (a : Nat) (v : Byte) : (s.memWrite a v).cfg = s.cfg := rfl
@[simp] theorem State.memWrite_slots (s : State) (a : Nat) (v : Byte) : (s.memWrite a v).slots = s.slots := rfl
@[simp] theorem State.memWrite_res (s : State) (a : Nat) (v : Byte) : (s.memWrite a v).res = s.res := rfl
@[simp] theorem State.memWrite_noelem (s : State) (a : Nat) (v : Byte) : (s.memWrite a v).noelem = s.noelem := rfl
@[simp] theorem State.memWrite_cmdCount (s : State) (a : Nat) (v : Byte) : (s.memWrite a v).cmdCount = s.cmdCount := rfl
@[simp] theorem State.memWrite_fault (s : State) (a : Nat) (v : Byte) : (s.memWrite a v).fault = s.fault := rfl
@[simp] theorem State.memWrite_cause (s : State) (a : Nat) (v : Byte) : (s.memWrite a v).cause = s.cause := rfl
@[simp] theorem State.memWrite_errIdx (s : State) (a : Nat) (v : Byte) : (s.memWrite a v).errIdx = s.errIdx := rfl
@[simp] theorem State.memWrite_errCmdLo (s : State) (a : Nat) (v : Byte) : (s.memWrite a v).errCmdLo = s.errCmdLo := rfl
@[simp] theorem State.memWrite_errCmdHi (s : State) (a : Nat) (v : Byte) : (s.memWrite a v).errCmdHi = s.errCmdHi := rfl
@[simp] theorem State.memWrite_iter (s : State) (a : Nat) (v : Byte) : (s.memWrite a v).iter = s.iter := rfl
@[simp] theorem State.memWrite_bmem (s : State) (a : Nat) (v : Byte) : (s.memWrite a v).bmem = Memory.write s.bmem a v := rfl
@[simp] theorem State.memWrite_bmemEpoch (s : State) (a : Nat) (v : Byte) : (s.memWrite a v).bmemEpoch = s.bmemEpoch := rfl
@[simp] theorem State.memWrite_inputs (s : State) (a : Nat) (v : Byte) : (s.memWrite a v).inputs = s.inputs := rfl
@[simp] theorem State.memWrite_reply (s : State) (a : Nat) (v : Byte) : (s.memWrite a v).reply = s.reply := rfl

/-! A run of byte writes changes BMEM. -/

@[simp] theorem State.memWriteBytes_cfg (s : State) (a : Nat) (vs : List Byte) : (s.memWriteBytes a vs).cfg = s.cfg := rfl
@[simp] theorem State.memWriteBytes_slots (s : State) (a : Nat) (vs : List Byte) : (s.memWriteBytes a vs).slots = s.slots := rfl
@[simp] theorem State.memWriteBytes_res (s : State) (a : Nat) (vs : List Byte) : (s.memWriteBytes a vs).res = s.res := rfl
@[simp] theorem State.memWriteBytes_noelem (s : State) (a : Nat) (vs : List Byte) : (s.memWriteBytes a vs).noelem = s.noelem := rfl
@[simp] theorem State.memWriteBytes_cmdCount (s : State) (a : Nat) (vs : List Byte) : (s.memWriteBytes a vs).cmdCount = s.cmdCount := rfl
@[simp] theorem State.memWriteBytes_fault (s : State) (a : Nat) (vs : List Byte) : (s.memWriteBytes a vs).fault = s.fault := rfl
@[simp] theorem State.memWriteBytes_cause (s : State) (a : Nat) (vs : List Byte) : (s.memWriteBytes a vs).cause = s.cause := rfl
@[simp] theorem State.memWriteBytes_errIdx (s : State) (a : Nat) (vs : List Byte) : (s.memWriteBytes a vs).errIdx = s.errIdx := rfl
@[simp] theorem State.memWriteBytes_errCmdLo (s : State) (a : Nat) (vs : List Byte) : (s.memWriteBytes a vs).errCmdLo = s.errCmdLo := rfl
@[simp] theorem State.memWriteBytes_errCmdHi (s : State) (a : Nat) (vs : List Byte) : (s.memWriteBytes a vs).errCmdHi = s.errCmdHi := rfl
@[simp] theorem State.memWriteBytes_iter (s : State) (a : Nat) (vs : List Byte) : (s.memWriteBytes a vs).iter = s.iter := rfl
@[simp] theorem State.memWriteBytes_bmem (s : State) (a : Nat) (vs : List Byte) : (s.memWriteBytes a vs).bmem = Memory.writeBytes s.bmem a vs := rfl
@[simp] theorem State.memWriteBytes_bmemEpoch (s : State) (a : Nat) (vs : List Byte) : (s.memWriteBytes a vs).bmemEpoch = s.bmemEpoch := rfl
@[simp] theorem State.memWriteBytes_inputs (s : State) (a : Nat) (vs : List Byte) : (s.memWriteBytes a vs).inputs = s.inputs := rfl
@[simp] theorem State.memWriteBytes_reply (s : State) (a : Nat) (vs : List Byte) : (s.memWriteBytes a vs).reply = s.reply := rfl

/-! Fault entry changes the five fault fields (60_exceptions.md R310). -/

@[simp] theorem State.raise_cfg (s : State) (x : Exc) (w : Cmd) : (s.raise x w).cfg = s.cfg := rfl
@[simp] theorem State.raise_slots (s : State) (x : Exc) (w : Cmd) : (s.raise x w).slots = s.slots := rfl
@[simp] theorem State.raise_res (s : State) (x : Exc) (w : Cmd) : (s.raise x w).res = s.res := rfl
@[simp] theorem State.raise_noelem (s : State) (x : Exc) (w : Cmd) : (s.raise x w).noelem = s.noelem := rfl
@[simp] theorem State.raise_cmdCount (s : State) (x : Exc) (w : Cmd) : (s.raise x w).cmdCount = s.cmdCount := rfl
@[simp] theorem State.raise_fault (s : State) (x : Exc) (w : Cmd) : (s.raise x w).fault = true := rfl
@[simp] theorem State.raise_cause (s : State) (x : Exc) (w : Cmd) : (s.raise x w).cause = x.code := rfl
@[simp] theorem State.raise_errIdx (s : State) (x : Exc) (w : Cmd) : (s.raise x w).errIdx = s.cmdCount := rfl
@[simp] theorem State.raise_errCmdLo (s : State) (x : Exc) (w : Cmd) : (s.raise x w).errCmdLo = w.extractLsb' 0 32 := rfl
@[simp] theorem State.raise_errCmdHi (s : State) (x : Exc) (w : Cmd) : (s.raise x w).errCmdHi = w.extractLsb' 32 32 := rfl
@[simp] theorem State.raise_iter (s : State) (x : Exc) (w : Cmd) : (s.raise x w).iter = s.iter := rfl
@[simp] theorem State.raise_bmem (s : State) (x : Exc) (w : Cmd) : (s.raise x w).bmem = s.bmem := rfl
@[simp] theorem State.raise_bmemEpoch (s : State) (x : Exc) (w : Cmd) : (s.raise x w).bmemEpoch = s.bmemEpoch := rfl
@[simp] theorem State.raise_inputs (s : State) (x : Exc) (w : Cmd) : (s.raise x w).inputs = s.inputs := rfl
@[simp] theorem State.raise_reply (s : State) (x : Exc) (w : Cmd) : (s.raise x w).reply = s.reply := rfl

/-! Reset sets every field but the parameters and the host's further interactions (10_state.md R36). -/

@[simp] theorem State.resetBlock_cfg (s : State) : (s.resetBlock).cfg = s.cfg := rfl
@[simp] theorem State.resetBlock_slots (s : State) : (s.resetBlock).slots = List.replicate s.cfg.nbuf [] := rfl
@[simp] theorem State.resetBlock_res (s : State) : (s.resetBlock).res = 0 := rfl
@[simp] theorem State.resetBlock_noelem (s : State) : (s.resetBlock).noelem = false := rfl
@[simp] theorem State.resetBlock_cmdCount (s : State) : (s.resetBlock).cmdCount = 0 := rfl
@[simp] theorem State.resetBlock_fault (s : State) : (s.resetBlock).fault = false := rfl
@[simp] theorem State.resetBlock_cause (s : State) : (s.resetBlock).cause = 0 := rfl
@[simp] theorem State.resetBlock_errIdx (s : State) : (s.resetBlock).errIdx = 0 := rfl
@[simp] theorem State.resetBlock_errCmdLo (s : State) : (s.resetBlock).errCmdLo = 0 := rfl
@[simp] theorem State.resetBlock_errCmdHi (s : State) : (s.resetBlock).errCmdHi = 0 := rfl
@[simp] theorem State.resetBlock_iter (s : State) : (s.resetBlock).iter = Iter.unbound := rfl
@[simp] theorem State.resetBlock_bmem (s : State) : (s.resetBlock).bmem = [] := rfl
@[simp] theorem State.resetBlock_bmemEpoch (s : State) : (s.resetBlock).bmemEpoch = s.bmemEpoch + 1 := rfl
@[simp] theorem State.resetBlock_inputs (s : State) : (s.resetBlock).inputs = s.inputs := rfl
@[simp] theorem State.resetBlock_reply (s : State) : (s.resetBlock).reply = .nothing := rfl

/-- A truth value is returned as the number 1 or 0. -/
@[simp] theorem State.withResBit_eq (s : State) (b : Bool) : s.withResBit b = s.withRes b.toNat := rfl

/-! The state after reset, field by field (10_state.md R36). -/

@[simp] theorem State.afterReset_cfg (c : Config) (epoch : Nat) : (State.afterReset c epoch).cfg = c := rfl
@[simp] theorem State.afterReset_slots (c : Config) (epoch : Nat) : (State.afterReset c epoch).slots = List.replicate c.nbuf [] := rfl
@[simp] theorem State.afterReset_res (c : Config) (epoch : Nat) : (State.afterReset c epoch).res = 0 := rfl
@[simp] theorem State.afterReset_noelem (c : Config) (epoch : Nat) : (State.afterReset c epoch).noelem = false := rfl
@[simp] theorem State.afterReset_cmdCount (c : Config) (epoch : Nat) : (State.afterReset c epoch).cmdCount = 0 := rfl
@[simp] theorem State.afterReset_fault (c : Config) (epoch : Nat) : (State.afterReset c epoch).fault = false := rfl
@[simp] theorem State.afterReset_cause (c : Config) (epoch : Nat) : (State.afterReset c epoch).cause = 0 := rfl
@[simp] theorem State.afterReset_errIdx (c : Config) (epoch : Nat) : (State.afterReset c epoch).errIdx = 0 := rfl
@[simp] theorem State.afterReset_errCmdLo (c : Config) (epoch : Nat) : (State.afterReset c epoch).errCmdLo = 0 := rfl
@[simp] theorem State.afterReset_errCmdHi (c : Config) (epoch : Nat) : (State.afterReset c epoch).errCmdHi = 0 := rfl
@[simp] theorem State.afterReset_iter (c : Config) (epoch : Nat) : (State.afterReset c epoch).iter = Iter.unbound := rfl
@[simp] theorem State.afterReset_bmem (c : Config) (epoch : Nat) : (State.afterReset c epoch).bmem = [] := rfl
@[simp] theorem State.afterReset_bmemEpoch (c : Config) (epoch : Nat) : (State.afterReset c epoch).bmemEpoch = epoch := rfl
@[simp] theorem State.afterReset_inputs (c : Config) (epoch : Nat) : (State.afterReset c epoch).inputs = [] := rfl
@[simp] theorem State.afterReset_reply (c : Config) (epoch : Nat) : (State.afterReset c epoch).reply = .nothing := rfl

end Sys2Proof.Machine
end

