-- ==== Sys2Proof/Laws/Memory.lean ====
section
/-! SUPPORT. BMEM: what a write does to every byte, and that every memory operation keeps the canonical form (20_memory.md R50,
R51, log entry 5). -/

namespace Sys2Proof.Machine

/-- A byte reads as it was last written; every other byte reads as before. -/
theorem Memory.read?_write (m : Memory) (a b : Nat) (v : Byte) :
    Memory.read? (Memory.write m a v) b = if b = a then some v else Memory.read? m b := by
  induction m with
  | nil => rfl
  | cons c m ih =>
    obtain ⟨d, u⟩ := c
    simp only [Memory.write]
    split
    · rfl
    · split
      · simp only [Memory.read?]; split <;> simp_all
      · rename_i hne
        simp only [Memory.read?, ih]
        by_cases hbd : b = d
        · subst hbd; simp [Ne.symm hne]
        · simp [hbd]

/-- After a run of writes from `a` on, the bytes of the run read as written and every other byte as before. -/
theorem Memory.read?_writeBytes (vs : List Byte) (m : Memory) (a b : Nat) :
    Memory.read? (Memory.writeBytes m a vs) b =
      if a ≤ b ∧ b < a + vs.length then vs[b - a]? else Memory.read? m b := by
  induction vs generalizing m a with
  | nil => rw [Memory.writeBytes, if_neg (by simp)]
  | cons v vs ih =>
    rw [Memory.writeBytes, ih, Memory.read?_write]
    by_cases hb : b = a
    · subst hb; simp
    · by_cases h : a + 1 ≤ b ∧ b < a + 1 + vs.length
      · have hlt : a ≤ b ∧ b < a + (v :: vs).length := by simp; omega
        obtain ⟨k, hk⟩ : ∃ k, b - a = k + 1 := ⟨b - a - 1, by omega⟩
        rw [if_pos h, if_pos hlt, hk, List.getElem?_cons_succ]
        congr 1; omega
      · have hlt : ¬ (a ≤ b ∧ b < a + (v :: vs).length) := by simp; omega
        rw [if_neg h, if_neg hlt, if_neg hb]

/-- A rising list stays rising from any lower bound. -/
theorem Memory.ascending_mono {limit lo lo' : Nat} {m : Memory} (h : Memory.ascending limit lo m = true) (hl : lo' ≤ lo) :
    Memory.ascending limit lo' m = true := by
  cases m with
  | nil => rfl
  | cons c m =>
    simp only [Memory.ascending, Bool.and_eq_true, decide_eq_true_eq] at h ⊢
    exact ⟨⟨by omega, h.1.2⟩, h.2⟩

theorem Memory.ascending_write {limit a : Nat} {v : Byte} (ha : a < limit) (m : Memory) (lo : Nat) (hlo : lo ≤ a)
    (h : Memory.ascending limit lo m = true) : Memory.ascending limit lo (Memory.write m a v) = true := by
  induction m generalizing lo with
  | nil => simp [Memory.write, Memory.ascending, ha, hlo]
  | cons c m ih =>
    obtain ⟨d, u⟩ := c
    simp only [Memory.ascending, Bool.and_eq_true, decide_eq_true_eq] at h
    simp only [Memory.write]
    split
    · rename_i had
      simp only [Memory.ascending, Bool.and_eq_true, decide_eq_true_eq]
      exact ⟨⟨hlo, ha⟩, ⟨⟨by omega, h.1.2⟩, h.2⟩⟩
    · split
      · rename_i had
        subst had
        simp only [Memory.ascending, Bool.and_eq_true, decide_eq_true_eq]
        exact ⟨⟨hlo, ha⟩, h.2⟩
      · rename_i h1 h2
        simp only [Memory.ascending, Bool.and_eq_true, decide_eq_true_eq]
        exact ⟨h.1, ih _ (by omega) h.2⟩

/-- A write inside the address range keeps the canonical form. -/
theorem Memory.wf_write {limit a : Nat} {m : Memory} (v : Byte) (ha : a < limit) (h : Memory.wf limit m = true) :
    Memory.wf limit (Memory.write m a v) = true :=
  Memory.ascending_write ha m 0 (Nat.zero_le a) h

/-- A run of writes inside the address range keeps the canonical form. -/
theorem Memory.wf_writeBytes {limit : Nat} (vs : List Byte) (m : Memory) (a : Nat) (ha : a + vs.length ≤ limit)
    (h : Memory.wf limit m = true) : Memory.wf limit (Memory.writeBytes m a vs) = true := by
  induction vs generalizing m a with
  | nil => exact h
  | cons v vs ih =>
    simp only [List.length_cons] at ha
    exact ih _ _ (by omega) (Memory.wf_write v (by omega) h)

/-- The BMEM of a block just reset is in canonical form. -/
theorem State.reset_bmem_wf : Memory.wf State.reset.cfg.bmemBytes State.reset.bmem = true := rfl

/-- Two canonical memories that list the same bytes are the same list. -/
theorem Memory.ext_of_ascending {limit : Nat} (m : Memory) : ∀ (m' : Memory) (lo : Nat),
    Memory.ascending limit lo m = true → Memory.ascending limit lo m' = true →
    (∀ a, Memory.read? m a = Memory.read? m' a) → m = m' := by
  have none_below : ∀ (m : Memory) (lo a : Nat), Memory.ascending limit lo m = true → a < lo → Memory.read? m a = none := by
    intro m
    induction m with
    | nil => intros; rfl
    | cons c m ih =>
      intro lo a h ha
      simp only [Memory.ascending, Bool.and_eq_true, decide_eq_true_eq] at h
      simp only [Memory.read?]
      rw [if_neg (by omega)]
      exact ih _ _ h.2 (by omega)
  induction m with
  | nil =>
    intro m' lo _ h' hr
    cases m' with
    | nil => rfl
    | cons c m' => have := hr c.1; simp [Memory.read?] at this
  | cons c m ih =>
    intro m' lo h h' hr
    obtain ⟨d, u⟩ := c
    cases m' with
    | nil => have := hr d; simp [Memory.read?] at this
    | cons c' m' =>
      obtain ⟨d', u'⟩ := c'
      simp only [Memory.ascending, Bool.and_eq_true, decide_eq_true_eq] at h h'
      have hd : d = d' := by
        rcases Nat.lt_trichotomy d d' with hlt | heq | hgt
        · have := hr d
          simp only [Memory.read?, if_true, if_neg (Nat.ne_of_lt hlt)] at this
          rw [none_below m' (d' + 1) d h'.2 (by omega)] at this; simp at this
        · exact heq
        · have := hr d'
          simp only [Memory.read?, if_true, if_neg (Nat.ne_of_lt hgt)] at this
          rw [none_below m (d + 1) d' h.2 (by omega)] at this; simp at this
      subst hd
      have hu : u = u' := by have := hr d; simpa [Memory.read?] using this
      subst hu
      have hm : m = m' := by
        refine ih m' (d + 1) h.2 h'.2 fun a => ?_
        by_cases had : a = d
        · subst had
          rw [none_below m (a + 1) a h.2 (by omega), none_below m' (a + 1) a h'.2 (by omega)]
        · have := hr a; simpa [Memory.read?, had] using this
      rw [hm]

/-- A byte read after a byte write (R51). -/
theorem State.memRead_memWrite (s : State) (a b : Nat) (v : Byte) :
    (s.memWrite a v).memRead b = if b = a then v else s.memRead b := by
  simp only [State.memRead, State.memWrite_bmem, State.memWrite_bmemEpoch, Memory.read?_write]
  split <;> rfl

/-- A byte read after a run of byte writes (R104). -/
theorem State.memRead_memWriteBytes (s : State) (a b : Nat) (vs : List Byte) :
    (s.memWriteBytes a vs).memRead b = if a ≤ b ∧ b < a + vs.length then vs.getD (b - a) 0 else s.memRead b := by
  simp only [State.memRead, State.memWriteBytes_bmem, State.memWriteBytes_bmemEpoch, Memory.read?_writeBytes]
  split
  · rename_i h
    rw [List.getD_eq_getElem?_getD, List.getElem?_eq_getElem (by omega)]
    rfl
  · rfl

/-- A read depends on BMEM and on the draw in force alone. -/
theorem State.memRead_congr {s t : State} (hm : t.bmem = s.bmem) (he : t.bmemEpoch = s.bmemEpoch) (a : Nat) :
    t.memRead a = s.memRead a := by
  simp only [State.memRead, hm, he]

end Sys2Proof.Machine
end

