-- ==== Sys2Proof/Laws/Slots.lean ====
section
/-! SUPPORT. Slots: what a slot write does to every slot and to the iterator (00_scope.md R9, 10_state.md R25, 45_iteration.md R193). -/

namespace Sys2Proof.Machine

/-- A slot reads as its entry of `slots`. -/
theorem State.buf_congr {s t : State} (h : t.slots = s.slots) (a : SlotField) : t.buf a = s.buf a := by
  simp only [State.buf, h]

/-- After a slot write every other slot is as before (R25). -/
theorem State.writeBuf_buf_other (s : State) (a c : SlotField) (x : Bits) (h : c ≠ a) : (s.writeBuf a x).buf c = s.buf c := by
  have hne : a.toNat ≠ c.toNat := fun e => h (BitVec.eq_of_toNat_eq e.symm)
  simp only [State.buf, State.writeBuf_slots, List.getD_eq_getElem?_getD]
  rw [List.getElem?_set_ne hne]

/-- After a write to an existing slot it holds what was written. -/
theorem State.writeBuf_buf_same (s : State) (a : SlotField) (x : Bits) (h : a.toNat < s.slots.length) :
    (s.writeBuf a x).buf a = x := by
  simp only [State.buf, State.writeBuf_slots, List.getD_eq_getElem?_getD]
  rw [List.getElem?_set_self h]; rfl

/-- A write to the slot the iterator is bound to unbinds it (45_iteration.md R193). -/
theorem State.writeBuf_iter_bound {s : State} {a : SlotField} (x : Bits) (h : s.iter.itv = true ∧ s.iter.itslot = a) :
    (s.writeBuf a x).iter = Iter.unbound := if_pos h

/-- Any other slot write leaves the iterator as it is. -/
theorem State.writeBuf_iter_other {s : State} {a : SlotField} (x : Bits) (h : ¬ (s.iter.itv = true ∧ s.iter.itslot = a)) :
    (s.writeBuf a x).iter = s.iter := if_neg h

/-- The other updates leave every slot as it is. -/
@[simp] theorem State.withRes_buf (s : State) (n : Nat) (c : SlotField) : (s.withRes n).buf c = s.buf c := rfl
@[simp] theorem State.withNoElement_buf (s : State) (c : SlotField) : s.withNoElement.buf c = s.buf c := rfl
@[simp] theorem State.counted_buf (s : State) (c : SlotField) : s.counted.buf c = s.buf c := rfl
@[simp] theorem State.memWrite_buf (s : State) (a : Nat) (v : Byte) (c : SlotField) : (s.memWrite a v).buf c = s.buf c := rfl
@[simp] theorem State.memWriteBytes_buf (s : State) (a : Nat) (vs : List Byte) (c : SlotField) :
    (s.memWriteBytes a vs).buf c = s.buf c := rfl
@[simp] theorem State.raise_buf (s : State) (x : Exc) (w : Cmd) (c : SlotField) : (s.raise x w).buf c = s.buf c := rfl

/-- After reset every slot is empty (R36). -/
theorem State.resetBlock_buf (s : State) (c : SlotField) : s.resetBlock.buf c = [] := by
  simp only [State.buf, State.resetBlock_slots, List.getD_eq_getElem?_getD, List.getElem?_replicate]
  split <;> rfl

/-- A slot of a state with `SlotsOk` is within the capacity (R21). -/
theorem State.SlotsOk.len_le {s : State} (h : s.SlotsOk) (a : SlotField) : s.len a ≤ s.cfg.maxBits := by
  simp only [State.len, State.buf, List.getD_eq_getElem?_getD]
  rcases hx : s.slots[a.toNat]? with _ | x
  · simp
  · exact h.2 x (List.mem_of_getElem? hx)

/-- A slot write within the capacity keeps `SlotsOk`. -/
theorem State.SlotsOk.writeBuf {s : State} (h : s.SlotsOk) (a : SlotField) {x : Bits} (hx : x.length ≤ s.cfg.maxBits) :
    (s.writeBuf a x).SlotsOk := by
  refine ⟨by simpa using h.1, fun y hy => ?_⟩
  rcases List.mem_or_eq_of_mem_set hy with hy | rfl
  · exact h.2 y hy
  · exact hx

/-- A slot write keeps `IterOk`: it either unbinds the iterator or leaves its slot alone. -/
theorem State.IterOk.writeBuf {s : State} (h : s.IterOk) (a : SlotField) (x : Bits) : (s.writeBuf a x).IterOk := by
  by_cases hb : s.iter.itv = true ∧ s.iter.itslot = a
  · have hi : (s.writeBuf a x).iter = Iter.unbound := by rw [State.writeBuf_iter, if_pos hb]
    exact ⟨fun hv => by rw [hi] at hv; exact absurd hv (by decide), fun _ => hi⟩
  · have hi : (s.writeBuf a x).iter = s.iter := by rw [State.writeBuf_iter, if_neg hb]
    refine ⟨fun hv => ?_, fun hv => ?_⟩
    · rw [hi] at hv ⊢
      have hne : s.iter.itslot ≠ a := fun e => hb ⟨hv, e⟩
      simp only [State.len, State.writeBuf_cfg]
      rw [State.writeBuf_buf_other s a _ x hne]
      exact h.1 hv
    · rw [hi] at hv ⊢; exact h.2 hv

end Sys2Proof.Machine
end

