-- ==== Sys2Proof/Laws/Commands.lean ====
section
/-! SUPPORT. What a command, a submitted word and a step can do, said once (30_encoding.md R78, 60_exceptions.md R310, R311,
70_reset_and_hazards.md R354). -/

namespace Sys2Proof.Machine

/-- Discarding or going on, in one equation. -/
theorem unlessFaulted_live {s : State} (h : s.fault = false) (u : State) : unlessFaulted s u = .next u := by
  simp [unlessFaulted, h]

theorem unlessFaulted_faulted {s : State} (h : s.fault = true) (u : State) : unlessFaulted s u = .next s := by
  simp [unlessFaulted, h]

/-- The frame of a command on a live block. -/
theorem command_live {i : Instr} {s : State} (hf : s.fault = false) (eff : State → Except Exc State) :
    command i s eff = .next (settle (encode i) s (if i.wellFormed s.cfg.nbuf = true then eff s else .error .illegalCommand)) :=
  unlessFaulted_live hf _

/-- A command on the faulted block is discarded (R311). -/
theorem command_faulted {i : Instr} {s : State} (hf : s.fault = true) (eff : State → Except Exc State) :
    command i s eff = .next s :=
  unlessFaulted_faulted hf _

/-- A command completes when its effect does. -/
theorem command_ok {i : Instr} {s u : State} {eff : State → Except Exc State} (hf : s.fault = false)
    (hw : i.wellFormed s.cfg.nbuf = true) (he : eff s = .ok u) : command i s eff = .next u.counted := by
  rw [command_live hf, if_pos hw, he]; rfl

/-- A command faults when its effect raises. -/
theorem command_error {i : Instr} {s : State} {x : Exc} {eff : State → Except Exc State} (hf : s.fault = false)
    (hw : i.wellFormed s.cfg.nbuf = true) (he : eff s = .error x) : command i s eff = .next (s.raise x (encode i)) := by
  rw [command_live hf, if_pos hw, he]; rfl

/-- A command with operands that fail the decode checks raises IllegalCommand. -/
theorem command_illFormed {i : Instr} {s : State} {eff : State → Except Exc State} (hf : s.fault = false)
    (hw : i.wellFormed s.cfg.nbuf = false) : command i s eff = .next (s.raise .illegalCommand (encode i)) := by
  rw [command_live hf, hw]; rfl

/-- Everything a command can do: be discarded, be refused by the decode checks, raise, or complete. -/
theorem command_cases {i : Instr} {s t : State} {eff : State → Except Exc State} (h : command i s eff = .next t) :
    (s.fault = true ∧ t = s) ∨
    (s.fault = false ∧ i.wellFormed s.cfg.nbuf = false ∧ t = s.raise .illegalCommand (encode i)) ∨
    (s.fault = false ∧ i.wellFormed s.cfg.nbuf = true ∧ ∃ x, eff s = .error x ∧ t = s.raise x (encode i)) ∨
    (s.fault = false ∧ i.wellFormed s.cfg.nbuf = true ∧ ∃ u, eff s = .ok u ∧ t = u.counted) := by
  rcases hf : s.fault with _ | _
  · rcases hw : i.wellFormed s.cfg.nbuf with _ | _
    · rw [command_illFormed hf hw] at h
      cases h; exact .inr (.inl ⟨rfl, rfl, rfl⟩)
    · rcases he : eff s with x | u
      · rw [command_error hf hw he] at h
        cases h; exact .inr (.inr (.inl ⟨rfl, rfl, x, rfl, rfl⟩))
      · rw [command_ok hf hw he] at h
        cases h; exact .inr (.inr (.inr ⟨rfl, rfl, u, rfl, rfl⟩))
  · rw [command_faulted hf] at h
    cases h; exact .inl ⟨rfl, rfl⟩

/-- A submitted word the decoder accepts is executed as its command. -/
theorem submit_ok {w : Cmd} {s : State} {i : Instr} (h : decode s.cfg.nbuf w = .ok i) : submit w s = exec i s := by
  simp [submit, h]

/-- A submitted word the decoder rejects raises IllegalCommand, unless the block is faulted. -/
theorem submit_error {w : Cmd} {s : State} {e : DecodeError} (h : decode s.cfg.nbuf w = .error e) :
    submit w s = unlessFaulted s (s.raise .illegalCommand w) := by
  simp [submit, h, rejectWord]

/-- Fault entry of this model is the fault entry claims are stated in. -/
theorem faultsAs_raise (x : Exc) (w : Cmd) (s : State) : FaultsAs x.code w s (.next (s.raise x w)) := rfl

/-- Everything a step can do: idle, or one interaction of the host. -/
theorem step_cases (s : State) :
    (s.inputs = [] ∧ step s = .next s) ∨
    ∃ e es, s.inputs = e :: es ∧ step s = hostTurn e { s with inputs := es } := by
  rcases h : s.inputs with _ | ⟨e, es⟩
  · exact .inl ⟨rfl, by simp [step, turn, h]⟩
  · exact .inr ⟨e, es, rfl, by simp [step, turn, h]⟩

/-- A host access to BMEM goes ahead exactly below `BMEM_BYTES`. -/
theorem withinBmem_cases (s : State) (a : Nat) (u : State) :
    (a < s.cfg.bmemBytes ∧ withinBmem s a u = .next u) ∨
    (s.cfg.bmemBytes ≤ a ∧ withinBmem s a u = .refused .hostAddressOutsideBmem) := by
  rcases Nat.lt_or_ge a s.cfg.bmemBytes with h | h
  · exact .inl ⟨h, if_pos h⟩
  · exact .inr ⟨h, if_neg (by omega)⟩

/-- A lane-wise operation raises LengthMismatch or writes its result and says whether a lane changed (R170 to R172). -/
theorem laneWise_cases (f : Bool → Bool → Bool) (a b : SlotField) (s : State) :
    (s.len a ≠ s.len b ∧ laneWise f a b s = .error .lengthMismatch) ∨
    (s.len a = s.len b ∧ laneWise f a b s = .ok ((s.writeBuf a (List.zipWith f (s.buf a) (s.buf b))).withResBit
      (decide (List.zipWith f (s.buf a) (s.buf b) ≠ s.buf a)))) := by
  rcases Nat.decEq (s.len a) (s.len b) with h | h
  · exact .inl ⟨h, if_pos h⟩
  · exact .inr ⟨h, if_neg (by simpa using h)⟩

end Sys2Proof.Machine
end

