-- ==== Sys2Proof/Laws/Encoding.lean ====
section
/-! SUPPORT. The command word: its seven fields are read back as they were written, and nothing else is in it (30_encoding.md
R71). -/

namespace Sys2Proof

/-- Reading the fields of a word made of fields gives them back. -/
theorem Fields.ofWord_toWord (f : Fields) : Fields.ofWord f.toWord = f := by
  obtain ⟨imm, rsv, p, v, b, a, opc⟩ := f
  simp only [Fields.ofWord, Fields.toWord, Fields.mk.injEq]
  refine ⟨?_, ?_, ?_, ?_, ?_, ?_, ?_⟩
  · repeat rw [BitVec.extractLsb'_append_eq_of_le (by omega)]
    exact BitVec.extractLsb'_eq_self
  · rw [BitVec.extractLsb'_append_eq_of_add_le (by omega)]
    repeat rw [BitVec.extractLsb'_append_eq_of_le (by omega)]
    exact BitVec.extractLsb'_eq_self
  · iterate 2 rw [BitVec.extractLsb'_append_eq_of_add_le (by omega)]
    repeat rw [BitVec.extractLsb'_append_eq_of_le (by omega)]
    exact BitVec.extractLsb'_eq_self
  · simp only [BitVec.getLsbD_append, show (16 : Nat) < 8 + 4 + 4 + 1 + 5 + 10 by omega]
    norm_num [BitVec.getLsbD_ofBool]
  · iterate 4 rw [BitVec.extractLsb'_append_eq_of_add_le (by omega)]
    repeat rw [BitVec.extractLsb'_append_eq_of_le (by omega)]
    exact BitVec.extractLsb'_eq_self
  · iterate 5 rw [BitVec.extractLsb'_append_eq_of_add_le (by omega)]
    repeat rw [BitVec.extractLsb'_append_eq_of_le (by omega)]
    exact BitVec.extractLsb'_eq_self
  · iterate 6 rw [BitVec.extractLsb'_append_eq_of_add_le (by omega)]
    exact BitVec.extractLsb'_eq_self

/-- A word is made of its fields: no bit of it lies outside them. -/
theorem Fields.toWord_ofWord (w : Cmd) : (Fields.ofWord w).toWord = w := by
  have hv : BitVec.ofBool (w.getLsbD 16) = w.extractLsb' 16 1 := by
    apply BitVec.eq_of_getLsbD_eq
    intro i hi
    obtain rfl : i = 0 := by omega
    simp
  simp only [Fields.ofWord, Fields.toWord, hv]
  iterate 6 rw [BitVec.extractLsb'_append_extractLsb'_eq_extractLsb' (by omega)]
  exact BitVec.extractLsb'_eq_self

end Sys2Proof
end

