-- ==== Sys2Proof/Laws/Sequences.lean ====
section
/-! SUPPORT. The sequence operations of 00_scope.md R8 and the byte mapping of 20_memory.md R52: lengths and elements. -/

namespace Sys2Proof.Machine

theorem slice_length (x : Bits) (a b : Nat) : (slice x a b).length = min b x.length - a := by
  simp [slice]

theorem slice_zero (x : Bits) (b : Nat) : slice x 0 b = x.take b := rfl

theorem slice_to_end (x : Bits) (a : Nat) : slice x a x.length = x.drop a := by simp [slice]

/-- Element `i` of a slice is element `a + i` of the sequence. -/
theorem bitAt_slice (x : Bits) (a b i : Nat) (h : a + i < b) : bitAt (slice x a b) i = bitAt x (a + i) := by
  simp [bitAt, slice, List.getD_eq_getElem?_getD, List.getElem?_drop, h]

/-- Two sequences of one length with the same elements are equal. -/
theorem bits_ext {x y : Bits} (hl : x.length = y.length) (h : ∀ i, i < x.length → bitAt x i = bitAt y i) : x = y := by
  apply List.ext_getElem hl
  intro i h1 h2
  have := h i h1
  simpa [bitAt, List.getD_eq_getElem?_getD, h1, h2] using this

theorem bitAt_of_le {x : Bits} {i : Nat} (h : x.length ≤ i) : bitAt x i = false := by
  simp [bitAt, List.getD_eq_getElem?_getD, h]

theorem bitAt_append (x y : Bits) (i : Nat) : bitAt (x ++ y) i = if i < x.length then bitAt x i else bitAt y (i - x.length) := by
  simp only [bitAt, List.getD_eq_getElem?_getD, List.getElem?_append]
  split <;> rfl

theorem bitAt_replicate (n i : Nat) (v : Bool) : bitAt (List.replicate n v) i = (decide (i < n) && v) := by
  simp only [bitAt, List.getD_eq_getElem?_getD, List.getElem?_replicate]
  split <;> simp_all

theorem chunks_length (n k : Nat) (x : Bits) : (chunks n k x).length = n := by
  induction n generalizing x with
  | zero => rfl
  | succ n ih => simp [chunks, ih]

/-- Chunk `g` is `slice(x, g·k, g·k + k)`. -/
theorem chunks_getElem? (n k : Nat) (x : Bits) (g : Nat) (h : g < n) :
    (chunks n k x)[g]? = some (slice x (g * k) (g * k + k)) := by
  induction n generalizing x g with
  | zero => omega
  | succ n ih =>
    cases g with
    | zero => simp [chunks, slice]
    | succ g =>
      rw [chunks, List.getElem?_cons_succ, ih _ _ (by omega)]
      congr 1
      simp only [slice, List.drop_take, List.drop_drop]
      congr 1
      · omega
      · congr 1; rw [Nat.succ_mul]; omega

/-- The chunks of a sequence of exactly `n · k` elements make it up again. -/
theorem chunks_flatten (n k : Nat) (x : Bits) (h : x.length = n * k) : (chunks n k x).flatten = x := by
  induction n generalizing x with
  | zero => simpa [chunks, eq_comm] using h
  | succ n ih =>
    rw [chunks, List.flatten_cons, ih, List.take_append_drop]
    rw [List.length_drop, h, Nat.succ_mul]; omega

/-- When `f` gives `k` elements for every part, the whole has `k` times as many as there are parts, and part `g` of it is `f` of part `g`. -/
theorem flatMap_length {α : Type} (f : α → Bits) (k : Nat) (xs : List α) (h : ∀ a ∈ xs, (f a).length = k) :
    (xs.flatMap f).length = xs.length * k := by
  induction xs with
  | nil => simp
  | cons a xs ih =>
    rw [List.flatMap_cons, List.length_append, h a (by simp), ih fun b hb => h b (by simp [hb]), List.length_cons, Nat.succ_mul]
    omega

theorem flatMap_slice {α : Type} (f : α → Bits) (k : Nat) (xs : List α) (h : ∀ a ∈ xs, (f a).length = k) (g : Nat)
    (hg : g < xs.length) : slice (xs.flatMap f) (g * k) (g * k + k) = f xs[g] := by
  induction xs generalizing g with
  | nil => simp at hg
  | cons a xs ih =>
    have ha : (f a).length = k := h a (by simp)
    cases g with
    | zero => simp [slice, ← ha]
    | succ g =>
      have hrec := ih (fun b hb => h b (by simp [hb])) g (by simpa using hg)
      rw [List.getElem_cons_succ, ← hrec]
      simp only [slice, List.flatMap_cons, List.drop_take, Nat.succ_mul]
      rw [show g * k + k = (f a).length + g * k by omega, List.drop_append, List.drop_eq_nil_of_le (by omega)]
      simp [ha]

theorem bitsOfByte_length (y : Byte) : (bitsOfByte y).length = 8 := by simp [bitsOfByte]

/-- Bit `t` of a byte's stream is its bit `7 − t` (R52). -/
theorem bitAt_bitsOfByte (y : Byte) (t : Nat) (h : t < 8) : bitAt (bitsOfByte y) t = y.getLsbD (7 - t) := by
  simp [bitAt, bitsOfByte, List.getD_eq_getElem?_getD, h]

theorem bitsOfBytes_length (ys : List Byte) : (bitsOfBytes ys).length = 8 * ys.length := by
  rw [bitsOfBytes, flatMap_length _ 8 ys fun y _ => bitsOfByte_length y]; omega

/-- Bit `7 − t` of a packed byte is bit `t` of the sequence, 0 past its end (R52). -/
theorem byteOfBits_getLsbD (x : Bits) (t : Nat) (h : t < 8) : (byteOfBits x).getLsbD (7 - t) = bitAt x t := by
  have := BitVec.getMsbD_ofFnBE (n := 8) (fun t : Fin 8 => bitAt x t) t
  rw [BitVec.getMsbD] at this
  simpa [h, byteOfBits] using this

/-- A byte is packed from its own bits. -/
theorem byteOfBits_bitsOfByte (y : Byte) : byteOfBits (bitsOfByte y) = y := by
  apply BitVec.eq_of_getLsbD_eq
  intro i hi
  have h := byteOfBits_getLsbD (bitsOfByte y) (7 - i) (by omega)
  rw [bitAt_bitsOfByte y _ (by omega), show 7 - (7 - i) = i by omega] at h
  exact h

theorem bytesOfBits_length (x : Bits) : (bytesOfBits x).length = ceilDiv x.length 8 := by
  simp [bytesOfBits, chunks_length]

end Sys2Proof.Machine
end

