-- ==== Sys2Proof/Laws/Frames.lean ====
section
/-! SUPPORT. The frames of Safety.lean hold of the shared operations: a counted slot write, two of them, and a counted result. -/

namespace Sys2Proof.Machine

/-- A counted update that keeps the parameters, the fault fields and the model's own fields has the frame of the slots it writes. -/
theorem commandFrame_counted {ws : List SlotField} {s u : State} (hc : u.cfg = s.cfg) (hb : ∀ c, c ∉ ws → u.buf c = s.buf c)
    (hn : u.cmdCount = s.cmdCount) (hf : u.fault = s.fault) (hca : u.cause = s.cause) (hei : u.errIdx = s.errIdx)
    (hlo : u.errCmdLo = s.errCmdLo) (hhi : u.errCmdHi = s.errCmdHi) (he : u.bmemEpoch = s.bmemEpoch)
    (hi : u.inputs = s.inputs) (hr : u.reply = s.reply) : CommandFrame ws s u.counted :=
  ⟨hc, hb, by simp [hn], hf, hca, hei, hlo, hhi, he, hi, hr⟩

theorem commandFrame_writeBuf (s : State) (a : SlotField) (x : Bits) : CommandFrame [a] s (s.writeBuf a x).counted :=
  commandFrame_counted rfl (fun c hc => State.writeBuf_buf_other s a c x (by simpa using hc)) rfl rfl rfl rfl rfl rfl rfl rfl rfl

/-- A result after a slot write leaves the same frame. -/
theorem commandFrame_writeBuf_withRes (s : State) (a : SlotField) (x : Bits) (n : Nat) :
    CommandFrame [a] s ((s.writeBuf a x).withRes n).counted :=
  commandFrame_counted rfl (fun c hc => State.writeBuf_buf_other s a c x (by simpa using hc)) rfl rfl rfl rfl rfl rfl rfl rfl rfl

theorem sameBmem_of_eq {s t : State} (hm : t.bmem = s.bmem) (he : t.bmemEpoch = s.bmemEpoch) : SameBmem s t :=
  fun a => State.memRead_congr hm he a

/-- A slot write invalidates exactly the iterator bound to that slot (45_iteration.md R193). -/
theorem iterAfterWriting_of_writeBuf {s t : State} (a : SlotField) (x : Bits) (h : t.iter = (s.writeBuf a x).iter) :
    IterAfterWriting [a] s t := by
  constructor
  · rintro ⟨hv, hm⟩
    rw [h, State.writeBuf_iter, if_pos ⟨hv, by simpa using hm⟩]; rfl
  · intro hn
    rw [h, State.writeBuf_iter, if_neg]
    rintro ⟨hv, hm⟩; exact hn ⟨hv, by simp [hm]⟩

/-- A command that only writes one slot. -/
theorem writerFrame_writeBuf (s : State) (a : SlotField) (x : Bits) : WriterFrame [a] s (s.writeBuf a x).counted :=
  ⟨commandFrame_writeBuf s a x, ⟨rfl, rfl⟩, sameBmem_of_eq rfl rfl, iterAfterWriting_of_writeBuf a x rfl⟩

/-- A command that writes two slots, one after the other. -/
theorem writerFrame_writeBuf_writeBuf (s : State) (a b : SlotField) (x y : Bits) :
    WriterFrame [a, b] s ((s.writeBuf a x).writeBuf b y).counted := by
  refine ⟨commandFrame_counted rfl (fun c hc => ?_) rfl rfl rfl rfl rfl rfl rfl rfl rfl, ⟨rfl, rfl⟩, sameBmem_of_eq rfl rfl, ?_⟩
  · simp only [List.mem_cons, List.not_mem_nil, or_false, not_or] at hc
    rw [State.writeBuf_buf_other _ b c y hc.2, State.writeBuf_buf_other s a c x hc.1]
  · constructor
    · rintro ⟨hv, hm⟩
      by_cases ha : s.iter.itslot = a
      · have hu : (s.writeBuf a x).iter = Iter.unbound := State.writeBuf_iter_bound x ⟨hv, ha⟩
        rw [State.counted_iter, State.writeBuf_iter_other, hu]
        · rfl
        · rw [hu]; rintro ⟨h, -⟩; exact absurd h (by decide)
      · have hb : s.iter.itslot = b := by simpa [ha] using hm
        have hu : (s.writeBuf a x).iter = s.iter := State.writeBuf_iter_other x fun h => ha h.2
        rw [State.counted_iter, State.writeBuf_iter_bound y (by rw [hu]; exact ⟨hv, hb⟩)]
        rfl
    · intro hn
      have hu : (s.writeBuf a x).iter = s.iter := State.writeBuf_iter_other x fun h => hn ⟨h.1, by simp [h.2]⟩
      rw [State.counted_iter, State.writeBuf_iter_other y (by rw [hu]; rintro ⟨hv, hb⟩; exact hn ⟨hv, by simp [hb]⟩), hu]

/-- A command that only returns a number. -/
theorem readerFrame_withRes (s : State) (n : Nat) : ReaderFrame s (s.withRes n).counted :=
  ⟨commandFrame_counted rfl (fun _ _ => rfl) rfl rfl rfl rfl rfl rfl rfl rfl rfl, sameBmem_of_eq rfl rfl, rfl⟩

/-- A command that only reports no element. -/
theorem readerFrame_withNoElement (s : State) : ReaderFrame s s.withNoElement.counted :=
  ⟨commandFrame_counted rfl (fun _ _ => rfl) rfl rfl rfl rfl rfl rfl rfl rfl rfl, sameBmem_of_eq rfl rfl, rfl⟩

/-- A number below 2^32 is returned whole. -/
theorem returns_withRes (s : State) {n : Nat} (h : n < 2 ^ 32) : Returns n (s.withRes n).counted := by
  exact ⟨by simpa using Nat.mod_eq_of_lt h, rfl⟩

end Sys2Proof.Machine

namespace Sys2Proof

/-- The capacity of a legal block is below 2^32 (00_scope.md R4). -/
theorem Config.Legal.maxBits_lt {c : Config} (h : c.Legal) : c.maxBits < 2 ^ 32 := by
  have := h.2.1.2
  simp only [Config.maxBits]; omega

end Sys2Proof
end

