-- ==== Sys2Proof/Laws/Hamming.lean ====
section
/-! SUPPORT. The Hamming codec's functions: lengths, the parity positions, and what a check sees of one changed position
(46_hamming.md R200 to R206). -/

namespace Sys2Proof.Machine

/-! ## Lengths -/

theorem arrangeFrom_length (n j : Nat) (g : Bits) : (arrangeFrom n j g).length = n := by
  induction n generalizing j g with
  | zero => rfl
  | succ n ih => simp only [arrangeFrom]; split <;> simp [ih]

theorem arrange_length (p : Nat) (g : Bits) : (arrange p g).length = blockLen p := arrangeFrom_length _ _ _

theorem parity_length (p : Nat) (c : Bits) : (parity p c).length = c.length := by
  unfold parity
  induction p with
  | zero => rfl
  | succ p ih => rw [List.range_succ, List.foldl_append]; simpa using ih

theorem encodeBlock_length (p : Nat) (g : Bits) : (encodeBlock p g).length = blockLen p := by
  rw [encodeBlock, parity_length, arrange_length]

theorem correct_length (c : Bits) (S : Nat) : (correct c S).length = c.length := by
  unfold correct; split <;> simp

theorem assembleFrom_length (j : Nat) (c : Bits) :
    (assembleFrom j c).length = ((List.range' j c.length).filter fun i => !isParity i).length := by
  induction c generalizing j with
  | nil => rfl
  | cons b c ih =>
    rw [assembleFrom, List.length_cons, List.range'_succ]
    split <;> simp_all

theorem assemble_length (p : Nat) (c : Bits) (h : c.length = blockLen p) : (assemble c).length = (dataPositions p).length := by
  rw [assemble, assembleFrom_length, h, dataPositions]

/-! ## Parity positions -/

theorem isParity_two_pow (n : Nat) : isParity (2 ^ n) = true := by
  have h1 : 1 ≤ 2 ^ n := Nat.one_le_two_pow
  have h2 : 2 ^ n &&& (2 ^ n - 1) = 0 := by
    rw [Nat.and_two_pow_sub_one_eq_mod, Nat.mod_self]
  simp [isParity, h1, h2]

/-- A position between two neighbouring powers of two is a data position (R201). -/
theorem isParity_between {n j : Nat} (h : 2 ^ n < j) (h' : j < 2 ^ (n + 1)) : isParity j = false := by
  obtain ⟨k, rfl⟩ : ∃ k, j = 2 ^ n + 1 + k := ⟨j - 2 ^ n - 1, by omega⟩
  have hk : k + 1 < 2 ^ n := by rw [Nat.pow_succ] at h'; omega
  have a1 : (2 ^ n + 1 + k).testBit n = true := by
    rw [show 2 ^ n + 1 + k = 2 ^ n + (1 + k) by omega, Nat.testBit_two_pow_add_eq, Nat.testBit_lt_two_pow (by omega)]; rfl
  have a2 : (2 ^ n + 1 + k - 1).testBit n = true := by
    rw [show 2 ^ n + 1 + k - 1 = 2 ^ n + k by omega, Nat.testBit_two_pow_add_eq, Nat.testBit_lt_two_pow (by omega)]; rfl
  have a3 : (2 ^ n + 1 + k) &&& (2 ^ n + 1 + k - 1) ≠ 0 := by
    intro hz
    have := congrArg (fun x => Nat.testBit x n) hz
    rw [Nat.testBit_and, a1, a2] at this
    simp at this
  rw [isParity, decide_eq_false a3, Bool.and_false]

/-- There are `D` data positions (R200, R202). -/
theorem dataPositions_length (p : Nat) : (dataPositions p).length = groupLen p := by
  induction p with
  | zero => rfl
  | succ p ih =>
    have hp : p < 2 ^ p := Nat.lt_two_pow_self
    have h1 : blockLen (p + 1) = blockLen p + (1 + blockLen p) := by simp only [blockLen, Nat.pow_succ]; omega
    have hb : 1 + blockLen p = 2 ^ p := by simp only [blockLen]; omega
    have h2 : (List.range' (2 ^ p + 1) (blockLen p)).filter (fun j => !isParity j) = List.range' (2 ^ p + 1) (blockLen p) := by
      apply List.filter_eq_self.2
      intro j hj
      rw [List.mem_range'_1] at hj
      rw [isParity_between (n := p) (by omega) (by rw [Nat.pow_succ]; omega)]; rfl
    have h3 : (List.range' (2 ^ p) (1 + blockLen p)).filter (fun j => !isParity j) = List.range' (2 ^ p + 1) (blockLen p) := by
      rw [Nat.add_comm 1, List.range'_succ, List.filter_cons, isParity_two_pow, h2]; rfl
    have h4 : dataPositions (p + 1) = dataPositions p ++ List.range' (2 ^ p + 1) (blockLen p) := by
      rw [dataPositions, h1, ← List.range'_append_1, List.filter_append, hb, ← hb, hb]
      conv_lhs => rw [show List.range' (2 ^ p) (2 ^ p) = List.range' (2 ^ p) (1 + blockLen p) by rw [hb]]
      rw [h3]; rfl
    rw [h4, List.length_append, ih, List.length_range']
    simp only [groupLen, blockLen, Nat.pow_succ]; omega

theorem decodeBlock_length (p : Nat) (c : Bits) (h : c.length = blockLen p) : (decodeBlock p c).length = groupLen p := by
  rw [decodeBlock, assemble_length p _ (by rw [correct_length, h]), dataPositions_length]

/-- A coded sequence has `L` bits for each group (R204). -/
theorem hammingEncode_length (p : Nat) (x : Bits) : (hammingEncode p x).length = groupCount p x.length * blockLen p := by
  rw [hammingEncode, flatMap_length _ (blockLen p) _ fun g _ => encodeBlock_length p g, chunks_length]

/-- A decoded sequence has `D` bits for each whole block (R206). -/
theorem hammingDecode_length (p : Nat) (y : Bits) : (hammingDecode p y).length = y.length / blockLen p * groupLen p := by
  rw [hammingDecode, flatMap_length _ (groupLen p), chunks_length]
  intro c hc
  obtain ⟨g, hg, rfl⟩ := List.mem_iff_getElem.1 hc
  have hgn : g < y.length / blockLen p := by rwa [chunks_length] at hg
  have hs := chunks_getElem? (y.length / blockLen p) (blockLen p) y g hgn
  rw [List.getElem?_eq_getElem hg] at hs
  rw [Option.some.inj hs]
  apply decodeBlock_length
  rw [slice_length]
  have hm : (g + 1) * blockLen p ≤ y.length :=
    Nat.le_trans (Nat.mul_le_mul_right _ hgn) (Nat.div_mul_le_self _ _)
  rw [Nat.succ_mul] at hm
  omega

/-! ## Checks -/

/-- Whether the check of mask `m` looks at position `j` (R203). -/
theorem maskedXor_set (m j k : Nat) (c : Bits) (v : Bool) (hk : k < c.length) :
    maskedXor m j (c.set k v) =
      Bool.xor (maskedXor m j c) (decide (m ≤ j + k) && decide ((j + k) &&& m ≠ 0) && Bool.xor (bitAt c k) v) := by
  induction c generalizing j k with
  | nil => simp at hk
  | cons b c ih =>
    cases k with
    | zero =>
      simp only [List.set_cons_zero, maskedXor, Nat.add_zero, bitAt, List.getD_cons_zero]
      generalize decide (m ≤ j) = p1
      generalize decide (j &&& m ≠ 0) = p2
      generalize maskedXor m (j + 1) c = p3
      cases b <;> cases v <;> cases p1 <;> cases p2 <;> cases p3 <;> rfl
    | succ k =>
      simp only [List.set_cons_succ, maskedXor]
      rw [ih (j + 1) k (by simpa using hk), show j + 1 + k = j + (k + 1) by omega]
      simp only [bitAt, List.getD_cons_succ, Bool.xor_assoc]

/-- A check changes exactly when a position it looks at changes. -/
theorem checkBit_set (m k : Nat) (c : Bits) (v : Bool) (hk : k < c.length) :
    checkBit m (c.set k v) =
      Bool.xor (checkBit m c) (decide (m ≤ k + 1) && decide ((k + 1) &&& m ≠ 0) && Bool.xor (bitAt c k) v) := by
  rw [checkBit, maskedXor_set m 1 k c v hk, Nat.add_comm 1 k]; rfl

/-- Bit `n` of a syndrome is the disagreement of the check of mask `2^n` (R203). -/
theorem check_testBit (p n : Nat) (c : Bits) : (check p c).testBit n = (decide (n < p) && checkBit (2 ^ n) c) := by
  unfold check
  induction p with
  | zero => simp
  | succ p ih =>
    rw [List.range_succ, List.foldl_append]
    simp only [List.foldl_cons, List.foldl_nil]
    generalize (List.range p).foldl _ 0 = S at ih ⊢
    by_cases hnp : n = p
    · subst hnp
      split
      · rename_i h; rw [Nat.testBit_xor, ih, Nat.testBit_two_pow_self, h]; simp
      · rename_i h; rw [ih]; simp [h]
    · have hlt : decide (n < p + 1) = decide (n < p) := by
        rw [decide_eq_decide]; omega
      split
      · rw [Nat.testBit_xor, ih, Nat.testBit_two_pow_of_ne (Ne.symm hnp), hlt]; simp
      · rw [ih, hlt]

/-- A syndrome is below `2^p` (R203). -/
theorem check_lt (p : Nat) (c : Bits) : check p c < 2 ^ p := by
  apply Nat.lt_pow_two_of_testBit
  intro n hn
  rw [check_testBit, decide_eq_false (by omega)]; rfl

end Sys2Proof.Machine
end

