-- ==== Sys2Proof/Laws/PerInstr.lean ====
section
/-! SUPPORT. Per-instruction families. `InRow`: the fields of a command lie in exactly its row of the opcode map
(30_encoding.md R77): the row has its opcode, its form leaves every unused field 0 (R76), and it builds the command back. -/

namespace Sys2Proof.Laws.InRow

/-- The command's fields are those of a row of the opcode map, and the row names the command. -/
def Statement (i : Instr) : Prop :=
  ∃ r, opcodeRow? i.fields.opc = some r ∧ i.fields.rsv = 0 ∧ r.form.unusedZero i.fields = true ∧ r.build i.fields = i

theorem new (a : SlotField) : Statement (.new a) := ⟨_, rfl, rfl, rfl, rfl⟩
theorem wcap (a : SlotField) (bits : ImmField) : Statement (.wcap a bits) := ⟨_, rfl, rfl, rfl, rfl⟩
theorem fill (a : SlotField) (n : ImmField) (v : Bool) : Statement (.fill a n v) := ⟨_, rfl, rfl, rfl, rfl⟩
theorem fromb (a : SlotField) (nbytes : ImmField) : Statement (.fromb a nbytes) := ⟨_, rfl, rfl, rfl, rfl⟩
theorem tob (a : SlotField) : Statement (.tob a) := ⟨_, rfl, rfl, rfl, rfl⟩
theorem clone (a b : SlotField) : Statement (.clone a b) := ⟨_, rfl, rfl, rfl, rfl⟩
theorem len (a : SlotField) : Statement (.len a) := ⟨_, rfl, rfl, rfl, rfl⟩
theorem get (a : SlotField) (i : ImmField) : Statement (.get a i) := ⟨_, rfl, rfl, rfl, rfl⟩
theorem set (a : SlotField) (i : ImmField) (v : Bool) : Statement (.set a i v) := ⟨_, rfl, rfl, rfl, rfl⟩
theorem push (a : SlotField) (v : Bool) : Statement (.push a v) := ⟨_, rfl, rfl, rfl, rfl⟩
theorem pop (a : SlotField) : Statement (.pop a) := ⟨_, rfl, rfl, rfl, rfl⟩
theorem append (a b : SlotField) : Statement (.append a b) := ⟨_, rfl, rfl, rfl, rfl⟩
theorem split (a b : SlotField) (cut : ImmField) : Statement (.split a b cut) := ⟨_, rfl, rfl, rfl, rfl⟩
theorem trunc (a : SlotField) (length : ImmField) : Statement (.trunc a length) := ⟨_, rfl, rfl, rfl, rfl⟩
theorem grow (a : SlotField) (n : ImmField) (v : Bool) : Statement (.grow a n v) := ⟨_, rfl, rfl, rfl, rfl⟩
theorem union (a b : SlotField) : Statement (.union a b) := ⟨_, rfl, rfl, rfl, rfl⟩
theorem inter (a b : SlotField) : Statement (.inter a b) := ⟨_, rfl, rfl, rfl, rfl⟩
theorem diff (a b : SlotField) : Statement (.diff a b) := ⟨_, rfl, rfl, rfl, rfl⟩
theorem all (a : SlotField) : Statement (.all a) := ⟨_, rfl, rfl, rfl, rfl⟩
theorem none (a : SlotField) : Statement (.none a) := ⟨_, rfl, rfl, rfl, rfl⟩
theorem any (a : SlotField) : Statement (.any a) := ⟨_, rfl, rfl, rfl, rfl⟩
theorem iter (a : SlotField) : Statement (.iter a) := ⟨_, rfl, rfl, rfl, rfl⟩
theorem inext : Statement .inext := ⟨_, rfl, rfl, rfl, rfl⟩
theorem iprev : Statement .iprev := ⟨_, rfl, rfl, rfl, rfl⟩
theorem henc (a b : SlotField) (p : ParamField) : Statement (.henc a b p) := ⟨_, rfl, rfl, rfl, rfl⟩
theorem hdec (a b : SlotField) (p : ParamField) : Statement (.hdec a b p) := ⟨_, rfl, rfl, rfl, rfl⟩
theorem hsyn (a : SlotField) (p : ParamField) (k : ImmField) : Statement (.hsyn a p k) := ⟨_, rfl, rfl, rfl, rfl⟩

end Sys2Proof.Laws.InRow
end

