-- ==== Sys2Proof/Machine/Assembler.lean ====
section
/-! DEFINITION. The assembler's syntax (30_encoding.md R77, R81) and its pseudo-instructions (R82): from one line of text to the
command it stands for. It is host software and no part of the block's state. What R81 leaves open in it (white space, leading
zeros, the case of hexadecimal digits) is log entry 14. -/

namespace Sys2Proof.Machine.Assembler

/-- White space between the parts of a line. -/
def isBlank (c : Char) : Bool := c == ' ' || c == '\t' || c == '\r' || c == '\n'

/-- A text without the white space at its two ends. -/
def trim (cs : List Char) : List Char := ((cs.dropWhile isBlank).reverse.dropWhile isBlank).reverse

/-- The line without its comment, which runs from `;` to the end (R81). -/
def stripComment (cs : List Char) : List Char := cs.takeWhile fun c => c != ';'

/-- The texts between commas. -/
def splitCommas : List Char → List (List Char)
  | [] => [[]]
  | c :: cs =>
    match splitCommas cs with
    | [] => [[c]]
    | t :: ts => if c == ',' then [] :: t :: ts else (c :: t) :: ts

/-- Mnemonics are case-insensitive (R81). -/
def upper (c : Char) : Char := if 'a' ≤ c ∧ c ≤ 'z' then Char.ofNat (c.toNat - 32) else c

/-- The value of a decimal digit. -/
def decDigit (c : Char) : Option Nat := if '0' ≤ c ∧ c ≤ '9' then some (c.toNat - 48) else none

/-- The value of a hexadecimal digit, in either case. -/
def hexDigit (c : Char) : Option Nat :=
  if 'a' ≤ c ∧ c ≤ 'f' then some (c.toNat - 87)
  else if 'A' ≤ c ∧ c ≤ 'F' then some (c.toNat - 55)
  else decDigit c

/-- The value of a nonempty run of digits in a base, most significant first. -/
def digits (base : Nat) (digit : Char → Option Nat) : Option Nat → List Char → Option Nat
  | acc, [] => acc
  | acc, c :: cs =>
    match digit c with
    | none => none
    | some d => digits base digit (some (acc.getD 0 * base + d)) cs

/-- A decimal number. -/
def decimal (cs : List Char) : Option Nat := digits 10 decDigit none cs

/-- A decimal number or a `0x` hexadecimal number (R81). -/
def number : List Char → Option Nat
  | '0' :: 'x' :: cs => digits 16 hexDigit none cs
  | cs => decimal cs

/-- A count, index, length or block index, from 0 to 2^32 − 1 (R81). -/
def immOperand (cs : List Char) : Option ImmField :=
  (number cs).bind fun n => if n < 2 ^ 32 then some (BitVec.ofNat 32 n) else none

/-- The parameter `p`, a decimal number from 2 to 31 (R81). -/
def paramOperand (cs : List Char) : Option ParamField :=
  (decimal cs).bind fun n => if 2 ≤ n ∧ n ≤ 31 then some (BitVec.ofNat 5 n) else none

/-- A bit value, `0` or `1` (R81). -/
def bitOperand : List Char → Option Bool
  | ['0'] => some false
  | ['1'] => some true
  | _ => none

/-- A slot, `b0` to `b15` (R81). -/
def slotOperand : List Char → Option SlotField
  | ['b', d] => (decDigit d).map (BitVec.ofNat 4)
  | ['b', '1', d] => (decDigit d).bind fun n => if n ≤ 5 then some (BitVec.ofNat 4 (10 + n)) else none
  | _ => none

/-- The operands of a form in the order the assembler writes them (R77), each into its field (R83). -/
def operands (opc : BitVec 8) : Form → List (List Char) → Option Fields
  | .A, [x] => (slotOperand x).map fun a => { opc, a }
  | .AI, [x, n] => (slotOperand x).bind fun a => (immOperand n).map fun imm => { opc, a, imm }
  | .AVI, [x, n, u] =>
    (slotOperand x).bind fun a => (immOperand n).bind fun imm => (bitOperand u).map fun v => { opc, a, imm, v }
  | .AV, [x, u] => (slotOperand x).bind fun a => (bitOperand u).map fun v => { opc, a, v }
  | .AB, [x, y] => (slotOperand x).bind fun a => (slotOperand y).map fun b => { opc, a, b }
  | .ABI, [x, y, n] =>
    (slotOperand x).bind fun a => (slotOperand y).bind fun b => (immOperand n).map fun imm => { opc, a, b, imm }
  | .Z, [] => some { opc }
  | .ABP, [x, y, q] =>
    (slotOperand x).bind fun a => (slotOperand y).bind fun b => (paramOperand q).map fun p => { opc, a, b, p }
  | .API, [x, q, n] =>
    (slotOperand x).bind fun a => (paramOperand q).bind fun p => (immOperand n).map fun imm => { opc, a, p, imm }
  | _, _ => none

/-- The pseudo-instructions (R82), by mnemonic and operand texts. -/
def pseudo (name : List Char) (args : List (List Char)) : Option Pseudo :=
  if name = ['C', 'L', 'R'] then (operands 0 .A args).map fun f => .clr f.a
  else if name = ['M', 'O', 'V'] then (operands 0 .AB args).map fun f => .mov f.a f.b
  else if name = ['B', 'S', 'E', 'T'] then (operands 0 .AI args).map fun f => .bset f.a f.imm
  else if name = ['B', 'C', 'L', 'R'] then (operands 0 .AI args).map fun f => .bclr f.a f.imm
  else none

/-- A command by mnemonic and operand texts (R77). -/
def commandOf (name : List Char) (args : List (List Char)) : Option Instr :=
  (opcodeTable.find? fun r => decide (r.mnemonic.toList = name)).bind fun r =>
    (operands r.opc r.form args).map r.build

/-- The operand texts of a line: none when nothing follows the mnemonic, else the texts between commas. -/
def argTexts (rest : List Char) : List (List Char) :=
  if (trim rest).isEmpty then [] else (splitCommas (trim rest)).map trim

/-- One line of assembly: the command it stands for, or nothing where the assembler refuses it (R81). -/
def assemble (line : List Char) : Option Instr :=
  let text := trim (stripComment line)
  let name := (text.takeWhile fun c => !isBlank c).map upper
  let args := argTexts (text.dropWhile fun c => !isBlank c)
  ((pseudo name args).map Pseudo.expand).or (commandOf name args)

end Sys2Proof.Machine.Assembler
end

