-- ==== Sys2Proof/Tests/Slice0.lean ====
section
/-! SUPPORT. Tests and witnesses. Expected values are those of spec/95_test_vectors.md (the vector is named in each docstring)
or, where a rule's file is named, computed by hand from that rule. A witness shows a state and operands that meet all the
hypotheses of an obligation, each clause at a boundary of its range. -/

namespace Sys2Proof.Machine.Tests

/-! ## Helpers -/

/-- A bit sequence from zeros and ones, index 0 first. -/
def b (xs : List Nat) : Bits := xs.map fun n => n == 1

/-- A reference block whose first slots hold these bits. -/
def holding (xs : List Bits) : State := { State.reset with slots := xs ++ List.replicate (8 - xs.length) [] }

/-- The same block with the iterator bound. -/
def bound (xs : List Bits) (slot : SlotField) (f k : Word) : State :=
  { holding xs with iter := { itv := true, itslot := slot, itf := f, itb := k } }

/-- The same block with bytes written to BMEM from address 0 on. -/
def withBytes (s : State) (vs : List Byte) : State := s.memWriteBytes 0 vs

/-- A block with other parameters, its first slots holding these bits. -/
def sized (nbuf maxWords bmemBytes : Nat) (xs : List Bits) : State :=
  { State.afterReset { nbuf, maxWords, bmemBytes } 0 with slots := xs ++ List.replicate (nbuf - xs.length) [] }

/-- The state one step after the word was submitted. -/
def after (s : State) (w : Nat) : Option State := nextState? (step (s.withFetchWord 64 w))

/-- CAUSE after the word was submitted, if it faulted. -/
def causeAfter (s : State) (w : Nat) : Option (Bool × BitVec 8) := (after s w).map fun t => (t.fault, t.cause)

/-- The state one step after another interaction of the host. -/
def afterEvent (s : State) (e : HostEvent) : Option State := nextState? (step { s with inputs := [e] })

/-- A block faulted by GET beyond the length (V-60-1). -/
def faulted : State :=
  { holding [b [1, 1, 1]] with
    res := 1, cmdCount := 2, fault := true, cause := 2, errIdx := 2, errCmdHi := 3, errCmdLo := 0x10 }

/-! ## Well-formedness: one ill-formed command for each check of R78 on operands -/

/-- Check 4: slot 8 of 8, slot 1 of 1, and each of two slot fields. -/
theorem test_slot_must_exist :
    Instr.wellFormed 8 (.new 8) = false ∧ Instr.wellFormed 1 (.iter 1) = false ∧
    Instr.wellFormed 8 (.clone 8 0) = false ∧ Instr.wellFormed 8 (.clone 0 8) = false ∧
    Instr.wellFormed 8 (.new 7) = true ∧ Instr.wellFormed 16 (.clone 15 15) = true := by decide

/-- Check 5: `p` below 2. -/
theorem test_param_at_least_two :
    Instr.wellFormed 8 (.henc 1 0 1) = false ∧ Instr.wellFormed 8 (.hdec 1 0 0) = false ∧
    Instr.wellFormed 8 (.hsyn 1 1 0) = false ∧ Instr.wellFormed 8 (.hsyn 1 2 0) = true := by decide

/-- Check 6: one slot for both operands of APPEND or SPLIT; CLONE, UNION and HENC may name one slot twice. -/
theorem test_slots_distinct :
    Instr.wellFormed 8 (.append 3 3) = false ∧ Instr.wellFormed 8 (.split 0 0 0) = false ∧
    Instr.wellFormed 8 (.append 3 2) = true ∧ Instr.wellFormed 8 (.clone 3 3) = true ∧
    Instr.wellFormed 8 (.union 3 3) = true ∧ Instr.wellFormed 8 (.henc 3 3 2) = true := by decide

/-! ## Decoding: a word of every command, from the vectors -/

/-- V-41-1, V-41-2, V-E1, V-41-8, P1 step 2, V-41-14, V-41-17. -/
theorem test_decode_construction :
    decodeTableWord 64 0x0000000000000201 = some (.new 2) ∧
    decodeTableWord 64 0x0001000000000002 = some (.wcap 0 65536) ∧
    decodeTableWord 64 0x0000000500010003 = some (.fill 0 5 true) ∧
    decodeTableWord 64 0x0000000200000104 = some (.fromb 1 2) ∧
    decodeTableWord 64 0x0000000000000105 = some (.tob 1) ∧
    decodeTableWord 64 0x0000000000001306 = some (.clone 3 1) ∧
    decodeTableWord 64 0x0000000000000707 = some (.len 7) := by decide

/-- V-42-1, V-42-4, V-42-7, V-42-9. -/
theorem test_decode_bit_access :
    decodeTableWord 64 0x0000000300000010 = some (.get 0 3) ∧
    decodeTableWord 64 0x0000000200000011 = some (.set 0 2 false) ∧
    decodeTableWord 64 0x0000000000010012 = some (.push 0 true) ∧
    decodeTableWord 64 0x0000000000000013 = some (.pop 0) := by decide

/-- V-43-1, V-43-5, V-43-10, V-43-14. -/
theorem test_decode_structural :
    decodeTableWord 64 0x0000000000001020 = some (.append 0 1) ∧
    decodeTableWord 64 0x0000000300001021 = some (.split 0 1 3) ∧
    decodeTableWord 64 0x0000000200000022 = some (.trunc 0 2) ∧
    decodeTableWord 64 0x0000000500010023 = some (.grow 0 5 true) := by decide

/-- P2 steps 6, 8, 10, 22, 20, 21. -/
theorem test_decode_boolean :
    decodeTableWord 64 0x0000000000002330 = some (.union 3 2) ∧
    decodeTableWord 64 0x0000000000002431 = some (.inter 4 2) ∧
    decodeTableWord 64 0x0000000000002532 = some (.diff 5 2) ∧
    decodeTableWord 64 0x0000000000000034 = some (.all 0) ∧
    decodeTableWord 64 0x0000000000000735 = some (.none 7) ∧
    decodeTableWord 64 0x0000000000000536 = some (.any 5) := by decide

/-- V-45-1, V-45-2, V-45-4, V-46-1, V-46-2, V-46-4. -/
theorem test_decode_iteration_and_hamming :
    decodeTableWord 64 0x0000000000000240 = some (.iter 2) ∧
    decodeTableWord 64 0x0000000000000041 = some .inext ∧
    decodeTableWord 64 0x0000000000000042 = some .iprev ∧
    decodeTableWord 64 0x0000000000060150 = some (.henc 1 0 3) ∧
    decodeTableWord 64 0x0000000000061251 = some (.hdec 2 1 3) ∧
    decodeTableWord 64 0x0000000100060152 = some (.hsyn 1 3 1) := by decide

/-- V-E2 to V-E9 and V-E11: each check rejects by its own name. -/
theorem test_decode_rejects :
    decode 8 0x0000000000000000 = .error .unassignedOpcode ∧
    decode 8 0x0000000000001033 = .error .unassignedOpcode ∧
    decode 8 0x0000000000400001 = .error .reservedNonzero ∧
    decode 8 0x0000000100000001 = .error .unusedNonzero ∧
    decode 8 0x0000000000010001 = .error .unusedNonzero ∧
    decode 8 0x0000000000000801 = .error .noSuchSlot ∧
    decode 8 0x0000000000020150 = .error .paramTooSmall ∧
    decode 8 0x0000000000000020 = .error .sameSlot ∧
    decode 8 0x0000000000000141 = .error .unusedNonzero := by decide

/-- The decoder's opcode map has the mnemonics and opcodes of spec/opcode_table.json, in its order. -/
theorem test_opcode_map_is_the_table :
    opcodeTable.map (fun r => (r.mnemonic, r.opc.setWidth 64)) = tableRows.map fun r => (r.1, r.2.1) := by decide

/-! ## The assembler -/

/-- V-E1, V-46-4 and a line with a comment (30_encoding.md R81). -/
theorem test_assemble_commands :
    Assembler.assemble ['F', 'I', 'L', 'L', ' ', 'b', '0', ',', ' ', '5', ',', ' ', '1'] = some (.fill 0 5 true) ∧
    Assembler.assemble ['h', 's', 'y', 'n', ' ', 'b', '1', ',', '3', ',', '0', 'x', '1'] = some (.hsyn 1 3 1) ∧
    Assembler.assemble ['I', 'N', 'E', 'X', 'T', ' ', ';', ' ', 'n', 'e', 'x', 't'] = some .inext := by decide

/-- V-E13 to V-E16 (30_encoding.md R82). -/
theorem test_assemble_pseudo_instructions :
    (Assembler.assemble ['C', 'L', 'R', ' ', 'b', '3']).map encode = some 0x0000000000000301 ∧
    (Assembler.assemble ['M', 'O', 'V', ' ', 'b', '2', ',', ' ', 'b', '1']).map encode = some 0x0000000000001206 ∧
    (Assembler.assemble ['B', 'S', 'E', 'T', ' ', 'b', '1', ',', ' ', '1']).map encode = some 0x0000000100010111 ∧
    (Assembler.assemble ['B', 'C', 'L', 'R', ' ', 'b', '1', ',', ' ', '0']).map encode = some 0x0000000000000111 := by decide

/-! ## One step of every command -/

/-- V-41-1. -/
theorem test_new : (after (holding [[], [], b [1, 1, 0, 1]]) 0x0000000000000201).map (fun t => (t.buf 2, t.cmdCount)) =
    some ([], 1) := by decide

/-- V-41-2. -/
theorem test_wcap : (after (holding [b [1, 1]]) 0x0001000000000002).map (fun t => (t.buf 0, t.fault)) = some ([], false) := by
  decide

/-- V-41-3. -/
theorem test_wcap_overflow : causeAfter (holding [b [1, 1]]) 0x0001000100000002 = some (true, 3) := by decide

/-- V-E1. -/
theorem test_fill : (after State.reset 0x0000000500010003).map (fun t => t.buf 0) = some (b [1, 1, 1, 1, 1]) := by decide

/-- V-41-6. -/
theorem test_fill_overflow : causeAfter State.reset 0x0001000100000003 = some (true, 3) := by decide

/-- V-41-8. -/
theorem test_fromb_msb_first :
    (after (withBytes State.reset [0xA5, 0x0F]) 0x0000000200000104).map (fun t => t.buf 1) =
      some (b [1, 0, 1, 0, 0, 1, 0, 1, 0, 0, 0, 0, 1, 1, 1, 1]) := by decide

/-- V-41-10 and V-41-18: PortRangeError goes before CapacityOverflow. -/
theorem test_fromb_traps : causeAfter State.reset 0x0000200100000104 = some (true, 5) ∧
    causeAfter (sized 1 1 5 []) 0x0000000500000004 = some (true, 3) := by decide

/-- V-41-11: the byte past the image stays. -/
theorem test_tob_pads_low_bits :
    (after (withBytes (holding [b [1, 1, 1, 1, 1]]) [0x00, 0x77]) 0x0000000000000005).map
      (fun t => (t.bmem, t.res, t.noelem)) = some ([(0, 0xF8), (1, 0x77)], 1, false) := by decide

/-- V-41-20. -/
theorem test_tob_outside_bmem : causeAfter (sized 1 1 1 [b [1, 0, 1, 0, 0, 0, 0, 1, 1]]) 0x0000000000000005 = some (true, 5) := by
  decide

/-- V-41-14: the bound slot is written. -/
theorem test_clone_unbinds : (after (bound [[], b [0, 1, 1, 0], [], b [1, 1, 1]] 3 1 3) 0x0000000000001306).map
    (fun t => (t.buf 3, t.iter)) = some (b [0, 1, 1, 0], Iter.unbound) := by decide

/-- V-41-16. -/
theorem test_len : (after (holding [b [1, 1, 0]]) 0x0000000000000007).map (fun t => t.res) = some 3 := by decide

/-- V-42-1. -/
theorem test_get : (after (holding [b [0, 0, 0, 1, 0]]) 0x0000000300000010).map (fun t => (t.res, t.noelem)) =
    some (1, false) := by decide

/-- V-42-2. -/
theorem test_get_at_length : causeAfter (holding [b [0, 0, 0, 1, 0]]) 0x0000000500000010 = some (true, 2) := by decide

/-- V-42-4. -/
theorem test_set : (after (holding [b [1, 1, 1]]) 0x0000000200000011).map (fun t => t.buf 0) = some (b [1, 1, 0]) := by decide

/-- V-42-5. -/
theorem test_set_at_length : causeAfter (holding [b [1, 1, 1]]) 0x0000000300010011 = some (true, 2) := by decide

/-- V-42-7. -/
theorem test_push : (after (holding [b [1, 0]]) 0x0000000000010012).map (fun t => t.buf 0) = some (b [1, 0, 1]) := by decide

/-- 42_bit_access.md R132 with `MAXWORDS = 1`, as V-42-8. -/
theorem test_push_full : causeAfter (sized 1 1 1 [List.replicate 32 false]) 0x0000000000010012 = some (true, 3) := by decide

/-- V-42-9. -/
theorem test_pop : (after (holding [b [1, 0, 1]]) 0x0000000000000013).map (fun t => (t.buf 0, t.res, t.noelem)) =
    some (b [1, 0], 1, false) := by decide

/-- V-42-11: no element, and the empty slot counts as written. -/
theorem test_pop_empty : (after (bound [] 0 0 0) 0x0000000000000013).map (fun t => (t.res, t.noelem, t.iter)) =
    some (0, true, Iter.unbound) := by decide

/-- V-43-1. -/
theorem test_append : (after (holding [b [1, 0, 1], b [0, 0, 1, 1]]) 0x0000000000001020).map (fun t => (t.buf 0, t.buf 1)) =
    some (b [1, 0, 1, 0, 0, 1, 1], []) := by decide

/-- 43_structural.md R150 with `MAXWORDS = 1`, as V-43-4. -/
theorem test_append_overflow :
    causeAfter (sized 2 1 1 [List.replicate 32 true, b [0]]) 0x0000000000001020 = some (true, 3) := by decide

/-- V-43-5. -/
theorem test_split : (after (holding [b [1, 1, 0, 1, 0, 0], b [1]]) 0x0000000300001021).map (fun t => (t.buf 0, t.buf 1)) =
    some (b [1, 1, 0], b [1, 0, 0]) := by decide

/-- V-43-8. -/
theorem test_split_beyond : causeAfter (holding [b [1, 1, 0, 1]]) 0x0000000500001021 = some (true, 2) := by decide

/-- V-43-10. -/
theorem test_trunc : (after (holding [b [1, 1, 1, 1, 1, 0]]) 0x0000000200000022).map (fun t => t.buf 0) = some (b [1, 1]) := by
  decide

/-- V-43-11 and V-43-12: a longer length changes nothing, and the slot still counts as written. -/
theorem test_trunc_never_lengthens :
    (after (holding [b [1, 1]]) 0x0000000900000022).map (fun t => t.buf 0) = some (b [1, 1]) ∧
    (after (bound [b [1, 1]] 0 0 2) 0x0000000200000022).map (fun t => t.iter) = some Iter.unbound := by decide

/-- V-43-14. -/
theorem test_grow : (after (holding [List.replicate 30 false]) 0x0000000500010023).map (fun t => t.buf 0) =
    some (List.replicate 30 false ++ List.replicate 5 true) := by decide

/-- 43_structural.md R153 with `MAXWORDS = 1`, as V-43-16. -/
theorem test_grow_overflow : causeAfter (sized 1 1 1 [List.replicate 26 false]) 0x0000000700010023 = some (true, 3) := by decide

/-- V-44-1. -/
theorem test_union : (after (holding [b [1, 0, 0, 1], b [0, 1, 0, 1]]) 0x0000000000001030).map (fun t => (t.buf 0, t.res)) =
    some (b [1, 1, 0, 1], 1) := by decide

/-- V-44-4. -/
theorem test_union_no_change : (after (holding [b [1, 1, 0, 1], b [0, 1, 0, 1]]) 0x0000000000001030).map
    (fun t => (t.buf 0, t.res)) = some (b [1, 1, 0, 1], 0) := by decide

/-- V-44-2. -/
theorem test_inter : (after (holding [b [1, 0, 0, 1], b [0, 1, 0, 1]]) 0x0000000000001031).map (fun t => (t.buf 0, t.res)) =
    some (b [0, 0, 0, 1], 1) := by decide

/-- V-44-5. -/
theorem test_inter_length_mismatch : causeAfter (holding [b [1, 0, 0, 1], b [0, 1, 0]]) 0x0000000000001031 = some (true, 4) := by
  decide

/-- V-44-3. -/
theorem test_diff : (after (holding [b [1, 0, 0, 1], b [0, 1, 0, 1]]) 0x0000000000001032).map (fun t => (t.buf 0, t.res)) =
    some (b [1, 0, 0, 0], 1) := by decide

/-- V-44-7: a slot with itself. -/
theorem test_diff_itself : (after (holding [b [1, 0, 0, 1]]) 0x0000000000000032).map (fun t => (t.buf 0, t.res)) =
    some (b [0, 0, 0, 0], 1) := by decide

/-- V-44-9 and V-44-13. -/
theorem test_all : (after State.reset 0x0000000000000034).map (fun t => t.res) = some 1 ∧
    (after (holding [List.replicate 32 true ++ [false]]) 0x0000000000000034).map (fun t => t.res) = some 0 := by decide

/-- V-44-10 and V-44-16. -/
theorem test_none : (after State.reset 0x0000000000000035).map (fun t => t.res) = some 1 ∧
    (after (holding [List.replicate 39 false ++ [true]]) 0x0000000000000035).map (fun t => t.res) = some 0 := by decide

/-- V-44-11 and V-44-15. -/
theorem test_any : (after State.reset 0x0000000000000036).map (fun t => t.res) = some 0 ∧
    (after (holding [List.replicate 39 false ++ [true]]) 0x0000000000000036).map (fun t => t.res) = some 1 := by decide

/-- V-45-1. -/
theorem test_iter : (after (holding [[], [], b [1, 0, 1]]) 0x0000000000000240).map (fun t => t.iter) =
    some { itv := true, itslot := 2, itf := 0, itb := 3 } := by decide

/-- V-45-7: a restart. -/
theorem test_iter_restarts : (after (bound [[], [], b [1, 0, 1]] 2 2 3) 0x0000000000000240).map (fun t => t.iter) =
    some { itv := true, itslot := 2, itf := 0, itb := 3 } := by decide

/-- V-45-2. -/
theorem test_inext : (after (bound [[], [], b [1, 0, 1]] 2 0 3) 0x0000000000000041).map (fun t => (t.res, t.noelem, t.iter)) =
    some (1, false, { itv := true, itslot := 2, itf := 1, itb := 3 }) := by decide

/-- V-45-3 and V-E10: exhausted, and unbound. -/
theorem test_inext_ends : (after (bound [[], [], b [1, 0, 1]] 2 3 3) 0x0000000000000041).map (fun t => (t.res, t.noelem)) =
    some (0, true) ∧ causeAfter State.reset 0x0000000000000041 = some (true, 1) := by decide

/-- V-45-4. -/
theorem test_iprev : (after (bound [[], [], b [1, 0, 1]] 2 0 3) 0x0000000000000042).map (fun t => (t.res, t.noelem, t.iter)) =
    some (1, false, { itv := true, itslot := 2, itf := 0, itb := 2 }) := by decide

/-- V-45-5 and V-45-12: exhausted, and unbound. -/
theorem test_iprev_ends : (after (bound [[], [], b [1, 0, 1]] 2 1 1) 0x0000000000000042).map (fun t => (t.res, t.noelem)) =
    some (0, true) ∧ causeAfter (holding [[], [], b [1, 0, 1]]) 0x0000000000000042 = some (true, 1) := by decide

/-- V-46-1. -/
theorem test_henc : (after (holding [b [1, 1, 1, 1, 0, 0, 0, 0]]) 0x0000000000060150).map (fun t => t.buf 1) =
    some (b [1, 1, 1, 1, 1, 1, 1, 0, 0, 0, 0, 0, 0, 0]) := by decide

/-- V-46-12. -/
theorem test_henc_overflow : causeAfter (holding [b [1]]) 0x0000000000220150 = some (true, 3) := by decide

/-- V-46-2: position 3 of block 0 is flipped and corrected. -/
theorem test_hdec : (after (holding [[], b [1, 1, 0, 1, 1, 1, 1, 0, 0, 0, 0, 0, 0, 0]]) 0x0000000000061251).map (fun t => t.buf 2) =
    some (b [1, 1, 1, 1, 0, 0, 0, 0]) := by decide

/-- V-46-26: two flips are not corrected. -/
theorem test_hdec_two_flips : (after (holding [[], b [1, 1, 1, 1, 1, 0, 0]]) 0x0000000000061251).map (fun t => t.buf 2) =
    some (b [1, 1, 0, 0]) := by decide

/-- V-46-3. -/
theorem test_hsyn : (after (holding [[], b [1, 1, 0, 1, 1, 1, 1, 0, 0, 0, 0, 0, 0, 0]]) 0x0000000000060152).map (fun t => t.res) =
    some 3 := by decide

/-- V-46-5. -/
theorem test_hsyn_beyond : causeAfter (holding [[], b [1, 1, 0, 1, 1, 1, 1, 0, 0, 0, 0, 0, 0, 0]]) 0x0000000200060152 =
    some (true, 2) := by decide

/-! ## Faults, the host's interactions and reset -/

/-- V-60-1. -/
theorem test_fault_record : (after { holding [b [1, 1, 1]] with res := 1, cmdCount := 2 } 0x0000000300000010).map
    (fun t => (t.status, t.errIdx, t.errCmdHi, t.errCmdLo, t.res, t.cmdCount)) = some (0x201, 2, 3, 0x10, 1, 2) := by decide

/-- V-60-2: discarded, legal or not. -/
theorem test_faulted_discards : after faulted 0x0000000000000012 = some { faulted with reply := .completion } ∧
    after faulted 0x0000000000000000 = some { faulted with reply := .completion } := by decide

/-- V-70-1. -/
theorem test_reset_after_fault :
    (afterEvent faulted .reset).map (fun t => (t.status, t.res, t.cmdCount, t.errIdx)) = some (0, 0, 0, 0) ∧
    (afterEvent faulted .reset).map (fun t => (t.buf 0, t.iter)) = some ([], Iter.unbound) := by decide

/-- V-70-1 and V-70-3: the configuration registers, and the reserved numbers. -/
theorem test_register_map :
    (State.reset.hostReg 6, State.reset.hostReg 7, State.reset.hostReg 8) = (8, 0x800, 0x2000) ∧
    State.reset.hostReg 9 = 0 ∧ State.reset.hostReg 0xFF = 0 ∧ faulted.hostReg 0 = 0x201 ∧ faulted.hostReg 4 = 0x10 := by decide

/-- 10_state.md R30: a read gives the register and changes nothing, a write changes nothing. -/
theorem test_host_registers :
    (afterEvent faulted (.readReg 2)).map (fun t => t.reply) = some (.reg 2) ∧
    afterEvent faulted (.writeReg 2 7) = some { faulted with reply := .nothing } := by decide

/-- 20_memory.md R64: a byte written is the byte read; the host has no move at address `BMEM_BYTES`. -/
theorem test_host_bmem :
    (afterEvent State.reset (.bmemWrite 8191 0x5A)).map (fun t => t.bmem) = some [(8191, 0x5A)] ∧
    (afterEvent (withBytes State.reset [0xA5, 0x0F]) (.bmemRead 1)).map (fun t => t.reply) = some (.byte 0x0F) ∧
    afterEvent State.reset (.bmemRead 8192) = none := by decide

/-- 60_exceptions.md R322: with nothing to do the block keeps all state. -/
theorem test_idle : nextState? (step faulted) = some faulted := by decide

/-- 10_state.md R28: CMDCOUNT wraps. -/
theorem test_cmdcount_wraps : (after { State.reset with cmdCount := 0xFFFFFFFF } 0x0000000000000001).map (fun t => t.cmdCount) =
    some 0 := by decide

/-! ## Witnesses: the hypotheses of every obligation that has some, clause by clause -/

/-- The state meets the invariant. -/
def meets (s : State) : Bool := decide s.Inv

theorem meets_iff (s : State) : meets s = true ↔ s.Inv := decide_eq_true_iff

/-- The two hypotheses every command statement starts with. -/
def live (s : State) : Bool := meets s && !s.fault

theorem live_iff (s : State) : live s = true ↔ s.Inv ∧ s.fault = false := by
  rw [live, Bool.and_eq_true, meets_iff, Bool.not_eq_true']

/-- The smallest block: one word a slot, one byte of BMEM; slot 0 has one bit free, slot 1 is full. -/
def tiny : State := sized 2 1 1 [List.replicate 31 true, List.replicate 32 false]

/-- The largest slot number there can be, 15, exists on a block of 16 slots. -/
def wide : State := sized 16 2048 8192 [b [1, 0, 1]]

theorem witness_DecodeReadsBackEveryCommand :
    Instr.wellFormed 1 (.new 0) = true ∧ Instr.wellFormed 16 (.hsyn 15 31 0xFFFFFFFF) = true ∧
    Instr.wellFormed 16 (.split 15 14 0xFFFFFFFF) = true ∧ Instr.wellFormed 2 (.henc 1 0 2) = true ∧
    Instr.wellFormed 16 (.grow 15 0xFFFFFFFF true) = true ∧ Instr.wellFormed 1 .inext = true := by decide

theorem witness_AcceptedWordIsTheCommandsEncoding :
    decode 16 0xFFFFFFFF003E0F52 = .ok (.hsyn 15 31 0xFFFFFFFF) ∧ decode 1 0x0000000000000001 = .ok (.new 0) := by decide

theorem witness_DecoderAcceptsExactlyTheLegalWords :
    (decode 8 0x0000000000000201 = .ok (.new 2) ∧ MatchesTable 0x0000000000000201) ∧
    (MatchesTable 0x0000000000000020 ∧ encode (.append 0 0) = 0x0000000000000020 ∧ Instr.wellFormed 8 (.append 0 0) = false) ∧
    ¬ MatchesTable 0x0000000000001033 := by
  unfold MatchesTable; decide

theorem witness_StepExecutesTheSubmittedCommand :
    (State.reset.withFetchWord 64 0x0000000500010003).inputs = [.submit 0x0000000500010003] ∧
    decode State.reset.cfg.nbuf 0x0000000500010003 = .ok (.fill 0 5 true) := by decide

theorem witness_IllegalWordsRaiseIllegalCommand :
    State.reset.fault = false ∧ State.reset.iter.itv = false ∧
    ¬ MatchesTable 0x0000000000000000 ∧ ¬ MatchesTable 0x0000000000400001 ∧ ¬ MatchesTable 0x0000000100000001 ∧
    Instr.wellFormed State.reset.cfg.nbuf (.new 8) = false ∧ Instr.wellFormed State.reset.cfg.nbuf (.henc 1 0 1) = false ∧
    Instr.wellFormed State.reset.cfg.nbuf (.append 0 0) = false := by
  unfold MatchesTable; decide

theorem witness_FaultedBlockDiscardsCommands :
    faulted.fault = true ∧ meets faulted = true ∧ 8191 < faulted.cfg.bmemBytes ∧ HostEvent.readReg 0 ≠ .reset ∧
    (afterEvent faulted (.submit 0)).isSome = true ∧ (afterEvent faulted (.readReg 255)).isSome = true ∧
    (afterEvent faulted (.bmemRead 0)).isSome = true ∧ (afterEvent faulted (.bmemWrite 8191 1)).isSome = true ∧
    (afterEvent faulted .reset).isSome = true := by decide

theorem witness_FaultEntryChangesOnlyTheFaultRecord :
    State.reset.fault = false ∧ (nextState? (submit 0x0000000000000010 State.reset)).map State.fault = some true ∧
    (nextState? (submit 0x0000000000000000 State.reset)).map State.fault = some true := by decide

theorem witness_CommandsRaiseOnlyTheirExceptions :
    (nextState? (exec (.get 0 0) State.reset)).map State.fault = some true ∧
    Instr.wellFormed State.reset.cfg.nbuf (.get 0 0) = true ∧
    (nextState? (exec .inext State.reset)).map State.fault = some true ∧
    (nextState? (exec (.new 8) State.reset)).map State.fault = some true := by decide

theorem witness_OnlyHostAccessOutsideBmemIsRefused :
    step { State.reset with inputs := [.bmemRead 8192] } = .refused .hostAddressOutsideBmem ∧
    step { State.reset with inputs := [.bmemWrite 8192 0] } = .refused .hostAddressOutsideBmem ∧
    nextState? (step { State.reset with inputs := [.bmemWrite 8191 0] }) ≠ none := by
  refine ⟨rfl, rfl, by decide⟩

theorem witness_StepKeepsTheStateInvariant :
    meets faulted = true ∧ meets tiny = true ∧ meets (bound [b [1, 0, 1]] 0 1 3) = true ∧
    (after (bound [b [1, 0, 1]] 0 1 3) 0x0000000000000041).isSome = true := by decide

theorem witness_ResetStateMeetsTheStateInvariant :
    Config.Legal { nbuf := 1, maxWords := 1, bmemBytes := 1 } ∧
    Config.Legal { nbuf := 16, maxWords := 134217727, bmemBytes := 4294967295 } ∧ Config.reference.Legal := by decide

theorem witness_ResetStateHasTheListedValues : State.reset = State.afterReset Config.reference 0 := rfl

theorem witness_ResetEventRestoresTheResetValues :
    ({ faulted with inputs := [.reset] } : State).inputs = .reset :: [] := by decide

theorem witness_CommandCounterCountsCompletions :
    (nextState? (submit 0x0000000000000001 State.reset)).map State.fault = some false ∧
    (nextState? (submit 0x0000000000000000 State.reset)).map State.fault = some true ∧
    (nextState? (submit 0x0000000000000001 faulted)).isSome = true ∧ faulted.fault = true := by decide

theorem witness_WritingTheBoundSlotUnbindsTheIterator :
    (nextState? (exec (.append 1 0) (bound [b [1]] 0 0 1))).map State.fault = some false ∧
    (0 : SlotField) ∈ slotsWritten (.append 1 0) ∧
    (nextState? (exec (.push 1 true) (bound [b [1]] 0 0 1))).map State.fault = some false ∧
    (0 : SlotField) ∉ slotsWritten (.push 1 true) ∧ isIterCommand (.push 1 true) = false ∧
    (nextState? (exec (.get 0 1) (bound [b [1]] 0 0 1))).map State.fault = some true := by decide

theorem witness_CommandsWriteOnlyTheirListedSlots :
    (nextState? (exec (.append 1 0) (holding [b [1]]))).isSome = true ∧ (2 : SlotField) ∉ slotsWritten (.append 1 0) := by decide

theorem witness_OnlyListedCommandsWriteTheResult :
    ((nextState? (exec (.push 0 true) State.reset)).isSome = true ∧ writesResult (.push 0 true) = false) ∧
    (nextState? (exec (.get 0 0) State.reset)).map State.fault = some true := by decide

theorem witness_OnlyTobWritesBmem :
    (nextState? (exec (.fromb 0 1) State.reset)).isSome = true ∧ (∀ a : SlotField, Instr.fromb 0 1 ≠ .tob a) := by decide

theorem witness_ResultRegisterIsNeverRead :
    State.reset.fault = false ∧ (nextState? (exec (.len 0) State.reset)).map State.fault = some false ∧
    writesResult (.len 0) = true := by decide

theorem witness_HostReadsTheRegisterMap :
    State.reset.cfg.Legal ∧ 9 ≤ (9 : BitVec 8).toNat ∧ 9 ≤ (255 : BitVec 8).toNat ∧ (5 : BitVec 8).toNat ≤ 5 ∧
    (afterEvent State.reset (.readReg 0)).isSome = true ∧ (afterEvent State.reset (.writeReg 255 1)).isSome = true := by decide

theorem witness_StatusWordHasTheListedFields : meets State.reset = true ∧ State.reset.fault = false ∧ meets faulted = true := by decide

theorem witness_HostReadsAndWritesBmemBytes :
    8191 < State.reset.cfg.bmemBytes ∧ State.reset.cfg.bmemBytes ≤ 8192 ∧ 0 < tiny.cfg.bmemBytes ∧ tiny.cfg.bmemBytes ≤ 1 ∧
    ({ tiny with inputs := [.bmemWrite 0 7] } : State).inputs = .bmemWrite 0 7 :: [] := by decide

theorem witness_StorageIsZeroFromTheLengthOn : tiny.len 0 ≤ 31 ∧ tiny.len 0 = 31 := by decide

theorem witness_WordLevelMethodsAgreeWithLanes :
    (b [1, 0]).length = (b [0, 0]).length ∧ (List.replicate 33 true).length = (List.replicate 33 false).length ∧
    b [1, 0] ≠ b [0, 0] := by decide

theorem witness_ByteMappingIsMsbFirstAndRoundTrips :
    7 < 8 * [(0xA5 : Byte)].length ∧ 1 < ceilDiv (b [1, 0, 1, 0, 0, 0, 0, 1, 1]).length 8 := by decide

theorem witness_NewEmptiesItsSlot :
    (live State.reset = true ∧ (7 : SlotField).toNat < State.reset.cfg.nbuf) ∧ (live wide = true ∧ (15 : SlotField).toNat < wide.cfg.nbuf) ∧
    State.reset.cfg.nbuf ≤ (8 : SlotField).toNat := by decide

theorem witness_WcapEmptiesItsSlotOrOverflows :
    live State.reset = true ∧ (7 : SlotField).toNat < State.reset.cfg.nbuf ∧ (65536 : ImmField).toNat ≤ State.reset.cfg.maxBits ∧
    State.reset.cfg.maxBits < (65537 : ImmField).toNat ∧ State.reset.cfg.nbuf ≤ (8 : SlotField).toNat := by decide

theorem witness_FillReplicatesTheBit :
    live State.reset = true ∧ (7 : SlotField).toNat < State.reset.cfg.nbuf ∧ (65536 : ImmField).toNat ≤ State.reset.cfg.maxBits ∧
    State.reset.cfg.maxBits < (65537 : ImmField).toNat ∧ State.reset.cfg.nbuf ≤ (8 : SlotField).toNat := by decide

theorem witness_FrombLoadsBmemBytes :
    (live State.reset = true ∧ (7 : SlotField).toNat < State.reset.cfg.nbuf ∧ (8192 : ImmField).toNat ≤ State.reset.cfg.bmemBytes ∧
      8 * (8192 : ImmField).toNat ≤ State.reset.cfg.maxBits ∧ State.reset.cfg.bmemBytes < (8193 : ImmField).toNat ∧
      State.reset.cfg.nbuf ≤ (8 : SlotField).toNat) ∧
    (live (sized 1 1 5 []) = true ∧ (0 : SlotField).toNat < (sized 1 1 5 []).cfg.nbuf ∧
      (5 : ImmField).toNat ≤ (sized 1 1 5 []).cfg.bmemBytes ∧ (sized 1 1 5 []).cfg.maxBits < 8 * (5 : ImmField).toNat) := by decide

theorem witness_TobStoresTheSlotAsBytes :
    (live (sized 1 1 1 [List.replicate 8 true]) = true ∧ ceilDiv ((sized 1 1 1 [List.replicate 8 true]).len 0) 8 ≤ 1) ∧
    (live (sized 1 1 1 [List.replicate 9 true]) = true ∧ 1 < ceilDiv ((sized 1 1 1 [List.replicate 9 true]).len 0) 8) ∧
    (sized 1 1 1 []).cfg.nbuf ≤ (1 : SlotField).toNat := by decide

theorem witness_CloneCopiesTheSlot :
    live wide = true ∧ (15 : SlotField).toNat < wide.cfg.nbuf ∧ (0 : SlotField).toNat < wide.cfg.nbuf ∧ live State.reset = true ∧
    State.reset.cfg.nbuf ≤ (8 : SlotField).toNat := by decide

theorem witness_LenReturnsTheLength :
    live tiny = true ∧ (1 : SlotField).toNat < tiny.cfg.nbuf ∧ tiny.cfg.nbuf ≤ (2 : SlotField).toNat := by decide

theorem witness_GetReturnsTheBitOrRaisesBounds :
    live tiny = true ∧ (1 : SlotField).toNat < tiny.cfg.nbuf ∧ (31 : ImmField).toNat < tiny.len 1 ∧
    tiny.len 1 ≤ (32 : ImmField).toNat ∧ tiny.cfg.nbuf ≤ (2 : SlotField).toNat := by decide

theorem witness_SetReplacesOneBitOrRaisesBounds :
    live tiny = true ∧ (1 : SlotField).toNat < tiny.cfg.nbuf ∧ (31 : ImmField).toNat < tiny.len 1 ∧
    tiny.len 1 ≤ (32 : ImmField).toNat ∧ tiny.cfg.nbuf ≤ (2 : SlotField).toNat := by decide

theorem witness_PushAppendsOneBit :
    live tiny = true ∧ (0 : SlotField).toNat < tiny.cfg.nbuf ∧ tiny.len 0 < tiny.cfg.maxBits ∧ (1 : SlotField).toNat < tiny.cfg.nbuf ∧
    tiny.len 1 = tiny.cfg.maxBits ∧ tiny.cfg.nbuf ≤ (2 : SlotField).toNat := by decide

theorem witness_PopTakesTheTailBit :
    (live tiny = true ∧ (0 : SlotField).toNat < tiny.cfg.nbuf ∧ tiny.buf 0 = List.replicate 30 true ++ [true]) ∧
    (live State.reset = true ∧ State.reset.buf 7 = [] ∧ (7 : SlotField).toNat < State.reset.cfg.nbuf) ∧
    tiny.cfg.nbuf ≤ (2 : SlotField).toNat := by decide

theorem witness_AppendMovesBitsOntoTheTail :
    (live (sized 2 1 1 [List.replicate 31 true, b [0]]) = true ∧ (0 : SlotField) ≠ 1 ∧
      (sized 2 1 1 [List.replicate 31 true, b [0]]).len 0 + (sized 2 1 1 [List.replicate 31 true, b [0]]).len 1 ≤ 32) ∧
    (live tiny = true ∧ tiny.cfg.maxBits < tiny.len 0 + tiny.len 1 ∧ tiny.cfg.nbuf ≤ (2 : SlotField).toNat) := by decide

theorem witness_SplitCutsTheSlotInTwo :
    live tiny = true ∧ (0 : SlotField).toNat < tiny.cfg.nbuf ∧ (1 : SlotField).toNat < tiny.cfg.nbuf ∧ (0 : SlotField) ≠ 1 ∧
    (31 : ImmField).toNat ≤ tiny.len 0 ∧ tiny.len 0 < (32 : ImmField).toNat ∧ tiny.cfg.nbuf ≤ (2 : SlotField).toNat := by decide

theorem witness_TruncShortensAndNeverLengthens :
    live tiny = true ∧ (0 : SlotField).toNat < tiny.cfg.nbuf ∧ tiny.cfg.nbuf ≤ (2 : SlotField).toNat := by decide

theorem witness_GrowAppendsCopiesOfTheBit :
    live tiny = true ∧ (0 : SlotField).toNat < tiny.cfg.nbuf ∧ tiny.len 0 + (1 : ImmField).toNat ≤ tiny.cfg.maxBits ∧
    tiny.cfg.maxBits < tiny.len 0 + (2 : ImmField).toNat ∧ tiny.cfg.nbuf ≤ (2 : SlotField).toNat := by decide

/-- Two slots of equal lengths, lane 1 of the first 0 and of the second 1. -/
def lanes01 : State := holding [b [0, 0], b [0, 1]]

/-- Two slots of equal lengths, lane 1 of the first 1 and of the second 0. -/
def lanes10 : State := holding [b [1, 1], b [1, 0]]

/-- Two slots of equal lengths, every lane 1 in both. -/
def lanes11 : State := holding [b [1, 1], b [1, 1]]

/-- Two slots of equal lengths, every lane 1 in the first and 0 in the second. -/
def lanesAll10 : State := holding [b [1, 1], b [0, 0]]

theorem witness_UnionOrsLaneByLane :
    (live lanes01 = true ∧ lanes01.len 0 = lanes01.len 1 ∧ 1 < lanes01.len 0 ∧ bitAt (lanes01.buf 0) 1 = false ∧ bitAt (lanes01.buf 1) 1 = true) ∧
    (live lanes11 = true ∧ lanes11.len 0 = lanes11.len 1 ∧ (∀ i, i < lanes11.len 0 → bitAt (lanes11.buf 0) i = true ∧ bitAt (lanes11.buf 1) i = true)) ∧
    (live tiny = true ∧ tiny.len 0 ≠ tiny.len 1 ∧ (1 : SlotField).toNat < tiny.cfg.nbuf ∧ tiny.cfg.nbuf ≤ (2 : SlotField).toNat) := by
  decide

theorem witness_InterAndsLaneByLane :
    (live lanes10 = true ∧ lanes10.len 0 = lanes10.len 1 ∧ 1 < lanes10.len 0 ∧ bitAt (lanes10.buf 0) 1 = true ∧ bitAt (lanes10.buf 1) 1 = false) ∧
    (live lanes11 = true ∧ lanes11.len 0 = lanes11.len 1 ∧ (∀ i, i < lanes11.len 0 → bitAt (lanes11.buf 0) i = true ∧ bitAt (lanes11.buf 1) i = true)) ∧
    (live tiny = true ∧ tiny.len 0 ≠ tiny.len 1 ∧ (1 : SlotField).toNat < tiny.cfg.nbuf ∧ tiny.cfg.nbuf ≤ (2 : SlotField).toNat) := by
  decide

theorem witness_DiffAndNotsLaneByLane :
    (live lanes11 = true ∧ lanes11.len 0 = lanes11.len 1 ∧ 1 < lanes11.len 0 ∧ bitAt (lanes11.buf 0) 1 = true ∧ bitAt (lanes11.buf 1) 1 = true) ∧
    (live lanesAll10 = true ∧ lanesAll10.len 0 = lanesAll10.len 1 ∧ (∀ i, i < lanesAll10.len 0 → bitAt (lanesAll10.buf 0) i = true ∧ bitAt (lanesAll10.buf 1) i = false)) ∧
    (live tiny = true ∧ tiny.len 0 ≠ tiny.len 1 ∧ (1 : SlotField).toNat < tiny.cfg.nbuf ∧ tiny.cfg.nbuf ≤ (2 : SlotField).toNat) := by
  decide

theorem witness_ReductionsTestTheBits :
    (live tiny = true ∧ (∀ i, i < tiny.len 0 → bitAt (tiny.buf 0) i = true) ∧ (∀ i, i < tiny.len 1 → bitAt (tiny.buf 1) i = false) ∧
      31 < tiny.len 1 ∧ bitAt (tiny.buf 1) 31 = false ∧ 30 < tiny.len 0 ∧ bitAt (tiny.buf 0) 30 = true) ∧
    (1 : SlotField).toNat < tiny.cfg.nbuf ∧ tiny.cfg.nbuf ≤ (2 : SlotField).toNat := by decide

theorem witness_IterBindsTheIterator :
    live tiny = true ∧ (1 : SlotField).toNat < tiny.cfg.nbuf ∧ tiny.cfg.nbuf ≤ (2 : SlotField).toNat := by decide

/-- The cursors one apart at the end of the slot. -/
def oneLeft : State := bound [b [1, 0, 1]] 0 2 3

/-- The cursors met at the end of the slot. -/
def exhausted : State := bound [b [1, 0, 1]] 0 3 3

theorem witness_InextYieldsTheFrontBit :
    (live oneLeft = true ∧ oneLeft.iter.itv = true ∧ oneLeft.iter.itf ≠ oneLeft.iter.itb) ∧
    (live exhausted = true ∧ exhausted.iter.itv = true ∧ exhausted.iter.itf = exhausted.iter.itb) ∧
    (live State.reset = true ∧ State.reset.iter.itv = false) := by decide

theorem witness_IprevYieldsTheBackBit :
    (live oneLeft = true ∧ oneLeft.iter.itv = true ∧ oneLeft.iter.itf ≠ oneLeft.iter.itb) ∧
    (live exhausted = true ∧ exhausted.iter.itv = true ∧ exhausted.iter.itf = exhausted.iter.itb) ∧
    (live State.reset = true ∧ State.reset.iter.itv = false) := by decide

theorem witness_HencEncodesEveryGroup :
    (live (holding [b [1]]) = true ∧ 65535 = 2 ^ (16 : ParamField).toNat - 1 ∧
      65519 = 2 ^ (16 : ParamField).toNat - (16 : ParamField).toNat - 1 ∧ 1 = ceilDiv ((holding [b [1]]).len 0) 65519 ∧
      2 ≤ (16 : ParamField).toNat ∧ 1 * 65535 ≤ (holding [b [1]]).cfg.maxBits) ∧
    (131071 = 2 ^ (17 : ParamField).toNat - 1 ∧ 131054 = 2 ^ (17 : ParamField).toNat - (17 : ParamField).toNat - 1 ∧
      1 = ceilDiv ((holding [b [1]]).len 0) 131054 ∧ (holding [b [1]]).cfg.maxBits < 1 * 131071) ∧
    (1 = ceilDiv ((holding [b [1]]).len 0) 1 ∧ 3 = 2 ^ (2 : ParamField).toNat - 1 ∧ 2 ≤ (2 : ParamField).toNat) ∧
    ((holding [b [1]]).cfg.nbuf ≤ (8 : SlotField).toNat ∧ (1 : ParamField).toNat < 2) := by decide

theorem witness_HdecDecodesEveryWholeBlock :
    (live (holding [[], List.replicate 10 true]) = true ∧ 7 = 2 ^ (3 : ParamField).toNat - 1 ∧
      4 = 2 ^ (3 : ParamField).toNat - (3 : ParamField).toNat - 1 ∧ 1 = (holding [[], List.replicate 10 true]).len 1 / 7 ∧
      2 ≤ (3 : ParamField).toNat) ∧
    ((holding [[], List.replicate 10 true]).cfg.nbuf ≤ (8 : SlotField).toNat ∧ (1 : ParamField).toNat < 2) := by decide

theorem witness_HsynReturnsTheBlockSyndrome :
    live (holding [[], List.replicate 14 true]) = true ∧ 7 = 2 ^ (3 : ParamField).toNat - 1 ∧ 2 ≤ (3 : ParamField).toNat ∧
    ((1 : ImmField).toNat + 1) * 7 ≤ (holding [[], List.replicate 14 true]).len 1 ∧
    (holding [[], List.replicate 14 true]).len 1 < ((2 : ImmField).toNat + 1) * 7 ∧
    (holding [[], List.replicate 14 true]).cfg.nbuf ≤ (8 : SlotField).toNat ∧ (1 : ParamField).toNat < 2 := by decide

/-- The smallest code, and the code with `p = 3` at its last data bit and its last check. -/
theorem witness_EncodedBlockHoldsDataAndParity :
    (2 ≤ 2 ∧ (b [1]).length = groupLen 2 ∧ 0 < groupLen 2 ∧ 1 < 2) ∧
    (2 ≤ 3 ∧ (b [1, 0, 1, 1]).length = groupLen 3 ∧ 3 < groupLen 3 ∧ 2 < 3) := by decide

/-- A flip at each end of a block. -/
theorem witness_SyndromeIsTheXorOfSetPositions :
    (2 ≤ 2 ∧ (b [1, 1, 1]).length = blockLen 2) ∧
    (2 ≤ 3 ∧ (b [1, 0, 1, 1]).length = groupLen 3 ∧ 1 ≤ blockLen 3 ∧ 7 ≤ blockLen 3) := by decide

/-- The data group of W7, with a flip at each end of its block. -/
theorem witness_SingleBitFlipIsCorrected :
    2 ≤ 3 ∧ (b [1, 0, 1, 1]).length = groupLen 3 ∧ 1 ≤ blockLen 3 ∧ 7 ≤ blockLen 3 := by decide

theorem witness_HammingRoundTripPadsWithZeros : 2 ≤ 2 ∧ 2 ≤ 31 := by decide

/-- The two parameters that never pad, P5 (`p = 4`, one byte `0xA5`, one zero byte more), and no byte at all. -/
theorem witness_HammingByteRoundTripAddsOnlyZeroBytes :
    (2 ≤ 2 ∧ (2 = 2 ∨ 2 = 3)) ∧ (2 ≤ 3 ∧ (3 = 2 ∨ 3 = 3)) ∧
    (2 ≤ 4 ∧ ceilDiv (ceilDiv (8 * [(0xA5 : Byte)].length) (groupLen 4) * groupLen 4) 8 - [(0xA5 : Byte)].length = 1) ∧
    (2 ≤ 31 ∧ ([] : List Byte).length = 0) := by decide

end Sys2Proof.Machine.Tests
end

section
/-! SUPPORT. What a command can do, said once for all 27 of them (files 41 to 46, 10_state.md R26, 45_iteration.md R193): its
update of the slots, BMEM or the iterator, the result it returns, and the outcomes of running it. -/

namespace Sys2Proof.Machine

/-- The update of the slots, BMEM or the iterator that a completed command makes before its result is written and counted. -/
inductive Update (i : Instr) (s : State) : State → Prop
  /-- A command that only reads. -/
  | keep (hw : slotsWritten i = []) : Update i s s
  /-- TOB stores bytes from address 0 on, inside BMEM (20_memory.md R56). -/
  | store (a : SlotField) (vs : List Byte) (hi : i = .tob a) (hv : vs.length ≤ s.cfg.bmemBytes) :
      Update i s (s.memWriteBytes 0 vs)
  /-- The iteration commands set the iterator, within the bounds of R33. -/
  | setIter (it : Iter) (hi : isIterCommand i = true) (hw : slotsWritten i = [])
      (hok : s.IterOk → State.IterOk { s with iter := it }) : Update i s { s with iter := it }
  /-- A command with one written slot. -/
  | writeOne (a : SlotField) (x : Bits) (hw : slotsWritten i = [a]) (hx : s.SlotsOk → x.length ≤ s.cfg.maxBits) :
      Update i s (s.writeBuf a x)
  /-- APPEND and SPLIT write two slots (10_state.md R25). -/
  | writeTwo (a b : SlotField) (x y : Bits) (hw : slotsWritten i = [a, b]) (hx : s.SlotsOk → x.length ≤ s.cfg.maxBits)
      (hy : s.SlotsOk → y.length ≤ s.cfg.maxBits) : Update i s ((s.writeBuf a x).writeBuf b y)

/-- The result a completed command leaves, for a command that writes results or does not (10_state.md R26). -/
inductive ResultUpdate (v : State) : Bool → State → Prop
  | keep : ResultUpdate v false v
  | number (n : Nat) : ResultUpdate v true (v.withRes n)
  | noElement : ResultUpdate v true v.withNoElement

/-- `u` is what command `i` makes of `s` when it completes, before it is counted. -/
def Completion (i : Instr) (s u : State) : Prop := ∃ v, Update i s v ∧ ResultUpdate v (writesResult i) u

/-- What an effect gives, if it raises nothing, is a completion of the command. -/
def Completes (i : Instr) (s : State) (e : Except Exc State) : Prop := ∀ u, e = .ok u → Completion i s u

theorem Completes.error {i : Instr} {s : State} (x : Exc) : Completes i s (.error x) := fun _ h => nomatch h

theorem Completes.ok {i : Instr} {s v u : State} (hv : Update i s v) (hu : ResultUpdate v (writesResult i) u) :
    Completes i s (.ok u) := by
  rintro _ ⟨⟩
  exact ⟨v, hv, hu⟩

theorem Completes.ite {i : Instr} {s : State} {c : Prop} [Decidable c] {e e' : Except Exc State}
    (h : c → Completes i s e) (h' : ¬ c → Completes i s e') : Completes i s (if c then e else e') := by
  split
  · exact h ‹_›
  · exact h' ‹_›

/-- A guarded effect: the exception when the guard holds, else the rest (00_scope.md R11). -/
theorem Completes.guard {i : Instr} {s : State} {c : Prop} [Decidable c] {x : Exc} {e : Except Exc State}
    (h : ¬ c → Completes i s e) : Completes i s (if c then .error x else e) :=
  .ite (fun _ => .error x) h

theorem slice_length_le (x : Bits) (a b : Nat) : (slice x a b).length ≤ x.length := by
  rw [slice_length]; omega

/-- A lane-wise result is no longer than its first operand, so it fits the slot. -/
theorem Completes.laneWise {i : Instr} {a b : SlotField} (f : Bool → Bool → Bool) (s : State)
    (hw : slotsWritten i = [a]) (hr : writesResult i = true) : Completes i s (laneWise f a b s) := by
  refine .guard fun _ => .ok (.writeOne a _ hw fun h => ?_) (hr ▸ ResultUpdate.number _)
  rw [List.length_zipWith]
  exact (Nat.min_le_left _ _).trans (h.len_le a)

/-- Decoding never lengthens: each block of `L` bits gives `D ≤ L` bits (46_hamming.md R200, R206). -/
theorem hammingDecode_length_le (p : Nat) (y : Bits) : (hammingDecode p y).length ≤ y.length := by
  have hD : groupLen p ≤ blockLen p := by simp only [groupLen, blockLen]; omega
  calc (hammingDecode p y).length = y.length / blockLen p * groupLen p := hammingDecode_length p y
    _ ≤ y.length / blockLen p * blockLen p := Nat.mul_le_mul_left _ hD
    _ ≤ y.length := Nat.div_mul_le_self _ _

/-- Binding the iterator to an existing slot gives cursors in the bounds of R33. -/
theorem State.iterOk_bind (s : State) (a : SlotField) (ha : a.toNat < s.cfg.nbuf) :
    State.IterOk { s with iter := { itv := true, itslot := a, itf := 0, itb := BitVec.ofNat 32 (s.len a) } } := by
  refine ⟨fun _ => ⟨ha, Nat.zero_le _, ?_⟩, nofun⟩
  rw [BitVec.toNat_ofNat]
  exact Nat.mod_le _ _

/-- While the cursors have not met, the front one may move on. -/
theorem State.IterOk.next {s : State} (h : s.IterOk) (hv : s.iter.itv = true) (hne : s.iter.itf ≠ s.iter.itb) :
    State.IterOk { s with iter := { s.iter with itf := s.iter.itf + 1 } } := by
  obtain ⟨hslot, hle, hlen⟩ := h.1 hv
  refine ⟨fun _ => ⟨hslot, ?_, hlen⟩, fun hv' => absurd hv (ne_true_of_eq_false hv')⟩
  dsimp only
  bv_omega

/-- While the cursors have not met, the back one may move back. -/
theorem State.IterOk.prev {s : State} (h : s.IterOk) (hv : s.iter.itv = true) (hne : s.iter.itf ≠ s.iter.itb) :
    State.IterOk { s with iter := { s.iter with itb := s.iter.itb - 1 } } := by
  obtain ⟨hslot, hle, hlen⟩ := h.1 hv
  have hback : (s.iter.itb - 1).toNat = s.iter.itb.toNat - 1 := by bv_omega
  refine ⟨fun _ => ⟨hslot, ?_, ?_⟩, fun hv' => absurd hv (ne_true_of_eq_false hv')⟩
  · show s.iter.itf.toNat ≤ (s.iter.itb - 1).toNat
    bv_omega
  · exact (hback.trans_le (Nat.sub_le _ _)).trans hlen

/-- A well-formed ITER names an existing slot (30_encoding.md R78 check 4). -/
theorem slot_lt_of_wellFormed_iter {n : Nat} {a : SlotField} (h : (Instr.iter a).wellFormed n = true) : a.toNat < n := by
  simpa [Instr.wellFormed, Instr.slotsExist, Instr.slotFields, Instr.paramLegal, Instr.slotsDistinct] using h

/-- Every command runs an effect in the frame of `command`, and what that effect gives is one of the updates above. -/
theorem exec_eq_command : ∀ i : Instr, ∃ eff : State → Except Exc State, (∀ s, exec i s = command i s eff) ∧
    ∀ s, i.wellFormed s.cfg.nbuf = true → Completes i s (eff s)
  | .new a => ⟨_, fun _ => rfl, fun _ _ => .ok (.writeOne a _ rfl fun _ => Nat.zero_le _) .keep⟩
  | .wcap a _ => ⟨_, fun _ => rfl, fun _ _ => .guard fun _ => .ok (.writeOne a _ rfl fun _ => Nat.zero_le _) .keep⟩
  | .fill a _ _ => ⟨_, fun _ => rfl, fun _ _ => .guard fun hc =>
      .ok (.writeOne a _ rfl fun _ => by simpa using hc) .keep⟩
  | .fromb a _ => ⟨_, fun _ => rfl, fun _ _ => .guard fun _ => .guard fun hc =>
      .ok (.writeOne a _ rfl fun _ => by simpa [bitsOfBytes_length] using hc) .keep⟩
  | .tob a => ⟨_, fun _ => rfl, fun _ _ => .guard fun hc =>
      .ok (.store a _ rfl ((bytesOfBits_length _).trans_le (not_lt.1 hc))) (.number _)⟩
  | .clone a b => ⟨_, fun _ => rfl, fun _ _ => .ok (.writeOne a _ rfl fun h => h.len_le b) .keep⟩
  | .len _ => ⟨_, fun _ => rfl, fun _ _ => .ok (.keep rfl) (.number _)⟩
  | .get _ _ => ⟨_, fun _ => rfl, fun _ _ => .guard fun _ => .ok (.keep rfl) (.number _)⟩
  | .set a _ _ => ⟨_, fun _ => rfl, fun _ _ => .guard fun _ =>
      .ok (.writeOne a _ rfl fun h => (List.length_set ..).trans_le (h.len_le a)) .keep⟩
  | .push a _ => ⟨_, fun _ => rfl, fun _ _ => .guard fun hc =>
      .ok (.writeOne a _ rfl fun _ => by simpa [State.len] using hc) .keep⟩
  | .pop a => ⟨_, fun _ => rfl, fun _ _ => .ite
      (fun _ => .ok (.writeOne a _ rfl fun _ => Nat.zero_le _) .noElement)
      (fun _ => .ok (.writeOne a _ rfl fun h => (slice_length_le ..).trans (h.len_le a)) (.number _))⟩
  | .append a b => ⟨_, fun _ => rfl, fun _ _ => .guard fun hc =>
      .ok (.writeTwo a b _ _ rfl (fun _ => by simpa [State.len] using hc) fun _ => Nat.zero_le _) .keep⟩
  | .split a b _ => ⟨_, fun _ => rfl, fun _ _ => .guard fun _ =>
      .ok (.writeTwo a b _ _ rfl (fun h => (slice_length_le ..).trans (h.len_le a))
        fun h => (slice_length_le ..).trans (h.len_le a)) .keep⟩
  | .trunc a n => ⟨_, fun _ => rfl, fun s _ => .ok (.writeOne a _ rfl fun h => by
      have := h.len_le a
      split
      · exact (slice_length_le ..).trans this
      · exact this) .keep⟩
  | .grow a _ _ => ⟨_, fun _ => rfl, fun _ _ => .guard fun hc =>
      .ok (.writeOne a _ rfl fun _ => by simpa [State.len] using hc) .keep⟩
  | .union _ _ => ⟨_, fun _ => rfl, fun s _ => .laneWise _ s rfl rfl⟩
  | .inter _ _ => ⟨_, fun _ => rfl, fun s _ => .laneWise _ s rfl rfl⟩
  | .diff _ _ => ⟨_, fun _ => rfl, fun s _ => .laneWise _ s rfl rfl⟩
  | .all _ => ⟨_, fun _ => rfl, fun _ _ => .ok (.keep rfl) (.number _)⟩
  | .none _ => ⟨_, fun _ => rfl, fun _ _ => .ok (.keep rfl) (.number _)⟩
  | .any _ => ⟨_, fun _ => rfl, fun _ _ => .ok (.keep rfl) (.number _)⟩
  | .iter a => ⟨_, fun _ => rfl, fun s hw =>
      .ok (.setIter _ rfl rfl fun _ => s.iterOk_bind a (slot_lt_of_wellFormed_iter hw)) .keep⟩
  | .inext => ⟨_, fun _ => rfl, fun _ _ => .guard fun hv => .ite (fun _ => .ok (.keep rfl) .noElement)
      fun hne => .ok (.setIter _ rfl rfl fun h => h.next (by simpa using hv) hne) (.number _)⟩
  | .iprev => ⟨_, fun _ => rfl, fun _ _ => .guard fun hv => .ite (fun _ => .ok (.keep rfl) .noElement)
      fun hne => .ok (.setIter _ rfl rfl fun h => h.prev (by simpa using hv) hne) (.number _)⟩
  | .henc a _ _ => ⟨_, fun _ => rfl, fun _ _ => .guard fun hc =>
      .ok (.writeOne a _ rfl fun _ => (hammingEncode_length ..).trans_le (not_lt.1 hc)) .keep⟩
  | .hdec a b _ => ⟨_, fun _ => rfl, fun _ _ =>
      .ok (.writeOne a _ rfl fun h => (hammingDecode_length_le ..).trans (h.len_le b)) .keep⟩
  | .hsyn _ _ _ => ⟨_, fun _ => rfl, fun _ _ => .guard fun _ => .ok (.keep rfl) (.number _)⟩

/-- Everything a command can do: be discarded, raise, or complete (60_exceptions.md R310, R311, R355). -/
theorem exec_cases {i : Instr} {s t : State} (h : exec i s = .next t) :
    (s.fault = true ∧ t = s) ∨
    (s.fault = false ∧ ∃ x, t = s.raise x (encode i)) ∨
    (s.fault = false ∧ ∃ u, Completion i s u ∧ t = u.counted) := by
  obtain ⟨eff, hexec, heff⟩ := exec_eq_command i
  rw [hexec] at h
  obtain ⟨hf, rfl⟩ | ⟨hf, -, rfl⟩ | ⟨hf, -, x, -, rfl⟩ | ⟨hf, hw, u, hu, rfl⟩ := command_cases h
  · exact .inl ⟨hf, rfl⟩
  · exact .inr (.inl ⟨hf, _, rfl⟩)
  · exact .inr (.inl ⟨hf, x, rfl⟩)
  · exact .inr (.inr ⟨hf, u, heff s hw u hu, rfl⟩)

/-- Everything a submitted word can do: be discarded, raise with its own bits in the record or those of its command, or be
executed to completion. -/
theorem submit_cases {w : Cmd} {s t : State} (h : submit w s = .next t) :
    (s.fault = true ∧ t = s) ∨
    (s.fault = false ∧ ∃ x w', t = s.raise x w') ∨
    (s.fault = false ∧ ∃ i u, Completion i s u ∧ t = u.counted) := by
  rcases hd : decode s.cfg.nbuf w with e | i
  · rw [submit_error hd] at h
    rcases hf : s.fault with _ | _
    · rw [unlessFaulted_live hf] at h
      cases h; exact .inr (.inl ⟨rfl, _, _, rfl⟩)
    · rw [unlessFaulted_faulted hf] at h
      cases h; exact .inl ⟨rfl, rfl⟩
  · rw [submit_ok hd] at h
    obtain h | ⟨hf, x, rfl⟩ | ⟨hf, u, hu, rfl⟩ := exec_cases h
    · exact .inl h
    · exact .inr (.inl ⟨hf, _, _, rfl⟩)
    · exact .inr (.inr ⟨hf, i, u, hu, rfl⟩)

/-- Writing the result changes nothing the frame speaks of. -/
theorem ResultUpdate.commandFrame {ws : List SlotField} {s u v : State} {wr : Bool} (h : ResultUpdate v wr u)
    (hv : CommandFrame ws s v.counted) : CommandFrame ws s u.counted := by
  obtain ⟨hcfg, hslots, hcount, hfault, hcause, hidx, hlo, hhi, hepoch, hin, hreply⟩ := hv
  cases h <;> exact ⟨hcfg, hslots, hcount, hfault, hcause, hidx, hlo, hhi, hepoch, hin, hreply⟩

/-- The slots, and nothing else the frame speaks of, change as the command's rule lists (10_state.md R25). -/
theorem Update.commandFrame {i : Instr} {s v : State} (h : Update i s v) : CommandFrame (slotsWritten i) s v.counted := by
  cases h with
  | keep | store | setIter => exact commandFrame_counted rfl (fun _ _ => rfl) rfl rfl rfl rfl rfl rfl rfl rfl rfl
  | writeOne a x hw => rw [hw]; exact commandFrame_writeBuf s a x
  | writeTwo a b x y hw => rw [hw]; exact (writerFrame_writeBuf_writeBuf s a b x y).1

/-- A completed command has the frame of the slots its rule lists (10_state.md R25, R28). -/
theorem Completion.commandFrame {i : Instr} {s u : State} (h : Completion i s u) :
    CommandFrame (slotsWritten i) s u.counted := by
  obtain ⟨v, hv, hu⟩ := h
  exact hu.commandFrame hv.commandFrame

/-- A completed command leaves FAULT clear when it was clear. -/
theorem Completion.fault_eq {i : Instr} {s u : State} (h : Completion i s u) : u.counted.fault = s.fault :=
  h.commandFrame.fault

/-- A completed command that returns nothing leaves RES and NOELEM (10_state.md R26). -/
theorem Completion.sameResult {i : Instr} {s u : State} (h : Completion i s u) (hr : writesResult i = false) :
    SameResult s u := by
  obtain ⟨v, hv, hu⟩ := h
  rw [hr] at hu
  cases hu
  cases hv <;> exact ⟨rfl, rfl⟩

end Sys2Proof.Machine
end

section
/-! SUPPORT. The invariant of the block's states, kept by each update, by fault entry, by reset and by every interaction of the
host (10_state.md R21, R26, R29, R31, R33), and the statements about it. -/

namespace Sys2Proof.Machine

/-- The state after reset meets the invariant (R36). -/
theorem State.inv_afterReset {c : Config} (h : c.Legal) (epoch : Nat) : (State.afterReset c epoch).Inv := by
  refine ⟨h, ⟨List.length_replicate, fun x hx => ?_⟩, ⟨nofun, fun _ => rfl⟩,
    ⟨fun _ => ⟨rfl, rfl, rfl, rfl⟩, nofun⟩, nofun, rfl⟩
  rw [List.eq_of_mem_replicate hx]
  exact Nat.zero_le _

/-- RESET gives a state after reset, with the host's interactions still to come. -/
theorem State.Inv.resetBlock {s : State} (h : s.Inv) : s.resetBlock.Inv := State.inv_afterReset h.1 (s.bmemEpoch + 1)

/-- A byte write inside BMEM keeps the invariant. -/
theorem State.Inv.memWrite {s : State} (h : s.Inv) {a : Nat} (v : Byte) (ha : a < s.cfg.bmemBytes) : (s.memWrite a v).Inv := by
  obtain ⟨hcfg, hslots, hiter, hrec, hres, hmem⟩ := h
  exact ⟨hcfg, hslots, hiter, hrec, hres, Memory.wf_write v ha hmem⟩

/-- A slot write within the capacity keeps the invariant. -/
theorem State.Inv.writeBuf {s : State} (h : s.Inv) (a : SlotField) {x : Bits} (hx : x.length ≤ s.cfg.maxBits) :
    (s.writeBuf a x).Inv := by
  obtain ⟨hcfg, hslots, hiter, hrec, hres, hmem⟩ := h
  exact ⟨hcfg, hslots.writeBuf a hx, hiter.writeBuf a x, hrec, hres, hmem⟩

theorem Exc.code_mem_range (x : Exc) : 1 ≤ x.code.toNat ∧ x.code.toNat ≤ 5 := by cases x <;> decide

/-- Fault entry keeps the invariant: its cause is one of 1 to 5 and its index is the count (60_exceptions.md R310). -/
theorem State.Inv.raise {s : State} (h : s.Inv) (x : Exc) (w : Cmd) : (s.raise x w).Inv := by
  obtain ⟨hcfg, hslots, hiter, -, hres, hmem⟩ := h
  obtain ⟨hlo, hhi⟩ := x.code_mem_range
  exact ⟨hcfg, hslots, hiter, ⟨nofun, fun _ => ⟨hlo, hhi, rfl⟩⟩, hres, hmem⟩

/-- Counting a command keeps the invariant of a live block, whose fault record says nothing about CMDCOUNT. -/
theorem State.Inv.counted {s : State} (h : s.Inv) (hf : s.fault = false) : s.counted.Inv := by
  obtain ⟨hcfg, hslots, hiter, hrec, hres, hmem⟩ := h
  exact ⟨hcfg, hslots, hiter, ⟨hrec.1, fun hf' => absurd hf' (ne_true_of_eq_false hf)⟩, hres, hmem⟩

theorem Update.inv {i : Instr} {s v : State} (h : Update i s v) (hs : s.Inv) : v.Inv := by
  have hslots : s.SlotsOk := hs.2.1
  cases h with
  | keep => exact hs
  | store a vs hi hv =>
    obtain ⟨hcfg, hslots, hiter, hrec, hres, hmem⟩ := hs
    exact ⟨hcfg, hslots, hiter, hrec, hres, Memory.wf_writeBytes vs s.bmem 0 ((Nat.zero_add _).trans_le hv) hmem⟩
  | setIter it hi hw hok =>
    obtain ⟨hcfg, hslots, hiter, hrec, hres, hmem⟩ := hs
    exact ⟨hcfg, hslots, hok hiter, hrec, hres, hmem⟩
  | writeOne a x hw hx => exact hs.writeBuf a (hx hslots)
  | writeTwo a b x y hw hx hy => exact (hs.writeBuf a (hx hslots)).writeBuf b (hy hslots)

/-- A result keeps the invariant: a number clears NOELEM, and no element comes with RES 0 (R26). -/
theorem ResultUpdate.inv {v u : State} {wr : Bool} (h : ResultUpdate v wr u) (hv : v.Inv) : u.Inv := by
  obtain ⟨hcfg, hslots, hiter, hrec, hres, hmem⟩ := hv
  cases h with
  | keep => exact ⟨hcfg, hslots, hiter, hrec, hres, hmem⟩
  | number n => exact ⟨hcfg, hslots, hiter, hrec, nofun, hmem⟩
  | noElement => exact ⟨hcfg, hslots, hiter, hrec, fun _ => rfl, hmem⟩

theorem Completion.inv {i : Instr} {s u : State} (h : Completion i s u) (hs : s.Inv) : u.Inv := by
  obtain ⟨v, hv, hu⟩ := h
  exact hu.inv (hv.inv hs)

theorem submit_inv {w : Cmd} {s t : State} (h : submit w s = .next t) (hs : s.Inv) : t.Inv := by
  obtain ⟨-, rfl⟩ | ⟨-, x, w', rfl⟩ | ⟨hf, i, u, hu, rfl⟩ := submit_cases h
  · exact hs
  · exact hs.raise x w'
  · exact (hu.inv hs).counted (hu.fault_eq.trans hf)

/-- Every interaction of the host keeps the invariant; what it leaves in `reply` is not part of it. -/
theorem hostTurn_inv {e : HostEvent} {s t : State} (h : hostTurn e s = .next t) (hs : s.Inv) : t.Inv := by
  cases e with
  | submit w => exact submit_inv (s := { s with reply := .completion }) h hs
  | readReg n => cases h; exact hs
  | writeReg n v => cases h; exact hs
  | bmemRead a =>
    obtain ⟨-, hw⟩ | ⟨-, hw⟩ := withinBmem_cases s a { s with reply := .byte (s.memRead a) }
    · cases hw.symm.trans h; exact hs
    · cases hw.symm.trans h
  | bmemWrite a v =>
    obtain ⟨ha, hw⟩ | ⟨-, hw⟩ := withinBmem_cases s a { s.memWrite a v with reply := .nothing }
    · cases hw.symm.trans h; exact hs.memWrite v ha
    · cases hw.symm.trans h
  | reset => cases h; exact hs.resetBlock

/-- Settles O13: an idle step changes nothing, and every interaction of the host keeps the invariant. -/
theorem stepKeepsTheStateInvariant : Obligations.StepKeepsTheStateInvariant := by
  intro s t hs h
  obtain ⟨-, hidle⟩ | ⟨e, es, -, hturn⟩ := step_cases s
  · cases hidle.symm.trans h; exact hs
  · exact hostTurn_inv (s := { s with inputs := es }) (hturn.symm.trans h) hs

/-- Settles O14, from the invariant of every state after reset. -/
theorem resetStateMeetsTheStateInvariant : Obligations.ResetStateMeetsTheStateInvariant :=
  ⟨⟨0, rfl⟩, State.inv_afterReset (by decide) 0, fun _ epoch h => State.inv_afterReset h epoch⟩

end Sys2Proof.Machine
end

section
/-! SUPPORT. What every command leaves alone: the counter of completions, the slots it does not list, and the result register
(10_state.md R25 to R28). -/

namespace Sys2Proof.Machine

/-- Settles O17, outcome by outcome: a completion counts, fault entry and discarding do not. -/
theorem commandCounterCountsCompletions : Obligations.CommandCounterCountsCompletions := by
  intro w s t h
  obtain ⟨hf, rfl⟩ | ⟨hf, x, w', rfl⟩ | ⟨hf, i, u, hu, rfl⟩ := submit_cases h
  · exact ⟨fun hf' => absurd hf (ne_true_of_eq_false hf'), fun _ _ => rfl, fun _ => rfl⟩
  · exact ⟨nofun, fun _ _ => rfl, fun _ => rfl⟩
  · refine ⟨fun _ _ => ?_, fun _ hf' => absurd hf' (ne_true_of_eq_false (hu.fault_eq.trans hf)),
      fun hf' => absurd hf' (ne_true_of_eq_false hf)⟩
    rw [hu.commandFrame.cmdCount, BitVec.toNat_add]
    rfl

/-- Settles O19: only a completion writes slots, and its frame lists them. -/
theorem commandsWriteOnlyTheirListedSlots : Obligations.CommandsWriteOnlyTheirListedSlots := by
  intro i s t c h hc
  obtain ⟨-, rfl⟩ | ⟨-, x, rfl⟩ | ⟨-, u, hu, rfl⟩ := exec_cases h
  · rfl
  · rfl
  · exact hu.commandFrame.slots c hc

/-- Settles O20: only a completion writes the result, and it leaves FAULT clear. -/
theorem onlyListedCommandsWriteTheResult : Obligations.OnlyListedCommandsWriteTheResult := by
  intro i s t h hcond
  obtain ⟨-, rfl⟩ | ⟨-, x, rfl⟩ | ⟨hf, u, hu, rfl⟩ := exec_cases h
  · exact ⟨rfl, rfl⟩
  · exact ⟨rfl, rfl⟩
  · obtain hr | hfault := hcond
    · exact hu.sameResult hr
    · exact absurd hfault (ne_true_of_eq_false (hu.fault_eq.trans hf))

end Sys2Proof.Machine
end

section
/-! SUPPORT. The result register is never read (10_state.md R27): running a command with another RES and NOELEM changes
nothing but them. -/

namespace Sys2Proof.Machine

/-- The state with RES and NOELEM set to these values. -/
def State.withResult (s : State) (r : Word) (b : Bool) : State := { s with res := r, noelem := b }

/-- Another result from before a command lasts through it unless the command writes its own. -/
def State.carryResult (i : Instr) (r : Word) (b : Bool) (u : State) : State :=
  bif writesResult i then u else u.withResult r b

/-- An effect reads nothing of RES and NOELEM: it raises and writes the same whatever they hold. -/
def IgnoresResult (i : Instr) (eff : State → Except Exc State) : Prop :=
  ∀ (s : State) (r : Word) (b : Bool), eff (s.withResult r b) = (eff s).map (State.carryResult i r b)

theorem IgnoresResult.error {i : Instr} (x : Exc) : IgnoresResult i fun _ => .error x := fun _ _ _ => rfl

theorem IgnoresResult.ok {i : Instr} {f : State → State}
    (h : ∀ s r b, f (s.withResult r b) = (f s).carryResult i r b) : IgnoresResult i fun s => .ok (f s) :=
  fun s r b => congrArg Except.ok (h s r b)

/-- A branch on anything but the result. -/
theorem IgnoresResult.ite {i : Instr} {c : State → Prop} [DecidablePred c] {e e' : State → Except Exc State}
    (hc : ∀ s r b, c (s.withResult r b) = c s) (h : IgnoresResult i e) (h' : IgnoresResult i e') :
    IgnoresResult i fun s => if c s then e s else e' s := by
  intro s r b
  have hiff : c (s.withResult r b) ↔ c s := iff_of_eq (hc s r b)
  dsimp only
  by_cases hs : c s
  · rw [if_pos hs, if_pos (hiff.2 hs), h]
  · rw [if_neg hs, if_neg (mt hiff.1 hs), h']

/-- A guard on anything but the result. -/
theorem IgnoresResult.guard {i : Instr} {c : State → Prop} [DecidablePred c] {x : Exc} {e : State → Except Exc State}
    (hc : ∀ s r b, c (s.withResult r b) = c s) (h : IgnoresResult i e) :
    IgnoresResult i fun s => if c s then .error x else e s :=
  .ite hc (.error x) h

theorem IgnoresResult.laneWise {i : Instr} (f : Bool → Bool → Bool) (a b : SlotField) (hr : writesResult i = true) :
    IgnoresResult i (laneWise f a b) :=
  .guard (fun _ _ _ => rfl) (.ok fun _ _ _ => by rw [State.carryResult, hr]; rfl)

/-- No command's effect reads the result register. -/
theorem exec_ignoresResult : ∀ i : Instr, ∃ eff : State → Except Exc State, (∀ s, exec i s = command i s eff) ∧
    IgnoresResult i eff
  | .new _ | .clone _ _ | .len _ | .trunc _ _ | .all _ | .none _ | .any _ | .iter _ | .hdec _ _ _ =>
    ⟨_, fun _ => rfl, .ok fun _ _ _ => rfl⟩
  | .wcap _ _ | .fill _ _ _ | .tob _ | .get _ _ | .set _ _ _ | .push _ _ | .append _ _ | .split _ _ _ | .grow _ _ _
  | .henc _ _ _ | .hsyn _ _ _ =>
    ⟨_, fun _ => rfl, .guard (fun _ _ _ => rfl) (.ok fun _ _ _ => rfl)⟩
  | .fromb _ _ => ⟨_, fun _ => rfl, .guard (fun _ _ _ => rfl) (.guard (fun _ _ _ => rfl) (.ok fun _ _ _ => rfl))⟩
  | .pop _ => ⟨_, fun _ => rfl, .ite (fun _ _ _ => rfl) (.ok fun _ _ _ => rfl) (.ok fun _ _ _ => rfl)⟩
  | .inext | .iprev =>
    ⟨_, fun _ => rfl, .guard (fun _ _ _ => rfl)
      (.ite (fun _ _ _ => rfl) (.ok fun _ _ _ => rfl) (.ok fun _ _ _ => rfl))⟩
  | .union _ _ | .inter _ _ | .diff _ _ => ⟨_, fun _ => rfl, .laneWise _ _ _ rfl⟩

/-- A command's effect together with its decode checks reads nothing of the result either. -/
theorem exec_eq_settle (i : Instr) : ∃ eff : State → Except Exc State,
    (∀ s, exec i s = unlessFaulted s (settle (encode i) s (eff s))) ∧ IgnoresResult i eff := by
  obtain ⟨eff, hexec, heff⟩ := exec_ignoresResult i
  exact ⟨_, hexec, .ite (fun _ _ _ => rfl) heff (.error .illegalCommand)⟩

/-- A command that writes results hides the one from before it; any other command carries it on. -/
theorem State.carryResult_eq_or (i : Instr) (r : Word) (b : Bool) (u : State) :
    (writesResult i = true ∧ u.carryResult i r b = u) ∨
    (writesResult i = false ∧ u.carryResult i r b = u.withResult r b) := by
  rcases h : writesResult i with _ | _ <;> simp [State.carryResult, h]

/-- Settles O22: with another result a discarded or faulting command differs in the result alone, and a completed
one at most there. -/
theorem resultRegisterIsNeverRead : Obligations.ResultRegisterIsNeverRead := by
  intro i s r b
  obtain ⟨eff, hexec, heff⟩ := exec_eq_settle i
  have hexec' : exec i { s with res := r, noelem := b } = _ := hexec (s.withResult r b)
  rw [heff s r b] at hexec'
  by_cases hf : s.fault = true
  · exact ⟨s, s.withResult r b, (hexec s).trans (unlessFaulted_faulted hf _),
      hexec'.trans (unlessFaulted_faulted (s := s.withResult r b) hf _), rfl, fun h => absurd hf (ne_true_of_eq_false h)⟩
  · have hf : s.fault = false := Bool.eq_false_of_not_eq_true hf
    refine ⟨_, _, (hexec s).trans (unlessFaulted_live hf _),
      hexec'.trans (unlessFaulted_live (s := s.withResult r b) hf _), ?_⟩
    rcases eff s with x | u
    · exact ⟨rfl, nofun⟩
    · show _ = u.counted ∧ (_ → _ → _ → (u.carryResult i r b).counted = u.counted)
      obtain ⟨-, hu⟩ | ⟨hr, hu⟩ := u.carryResult_eq_or i r b
      · exact ⟨by simp only [Except.map, settle, hu], fun _ _ _ => by rw [hu]⟩
      · exact ⟨by simp only [Except.map, settle, hu]; rfl, fun _ _ hr' => absurd hr' (ne_true_of_eq_false hr)⟩

end Sys2Proof.Machine
end

section
/-! SUPPORT. Storage words, the values after reset and the host's registers (10_state.md R22 to R24, R29, R30, R36). -/

namespace Sys2Proof.Machine

/-- A storage bit is the element of the sequence at its index, 0 from the length on (R22, R23). -/
theorem State.storedBit_eq (s : State) (a : SlotField) (i : Nat) : s.storedBit a i = bitAt (s.buf a) i := by
  have hlt : i % 32 < 32 := Nat.mod_lt i (by decide)
  rw [State.storedBit, storageWord, BitVec.getLsbD_ofFnLE, dif_pos hlt, Nat.div_add_mod]

/-- A sequence is the list of its elements. -/
theorem map_bitAt_range (x : Bits) : (List.range x.length).map (bitAt x) = x := by
  refine bits_ext (by simp) fun i hi => ?_
  have hi' : i < x.length := by simpa using hi
  rw [bitAt, List.getD_eq_getElem?_getD, List.getElem?_map, List.getElem?_range hi']
  rfl

/-- Settles O26: the stored bits are the elements of the sequence, and past its end the element is 0. -/
theorem storageIsZeroFromTheLengthOn : Obligations.StorageIsZeroFromTheLengthOn := by
  intro s a
  refine ⟨fun i hi => (s.storedBit_eq a i).trans (bitAt_of_le hi), ?_⟩
  rw [funext (s.storedBit_eq a)]
  exact (map_bitAt_range (s.buf a)).symm

/-- The storage words of an empty slot are 0 (R23). -/
theorem storageWord_nil (k : Nat) : storageWord [] k = 0 := by
  apply BitVec.eq_of_getLsbD_eq
  intro i hi
  rw [storageWord, BitVec.getLsbD_ofFnLE, dif_pos hi]
  exact BitVec.getLsbD_zero.symm

/-- After reset every slot is empty (R36). -/
theorem State.afterReset_buf (c : Config) (epoch : Nat) (a : SlotField) : (State.afterReset c epoch).buf a = [] := by
  simp only [State.buf, State.afterReset_slots, List.getD_eq_getElem?_getD, List.getElem?_replicate]
  split <;> rfl

/-- STATUS reads 0 after reset (R36). -/
theorem State.afterReset_status (c : Config) (epoch : Nat) : (State.afterReset c epoch).status = 0 := by
  rw [State.status, State.afterReset_cause, State.afterReset_iter, State.afterReset_noelem, State.afterReset_fault]
  decide

/-- Settles O15, field by field; every slot is empty, so its length and its storage words are 0. -/
theorem resetStateHasTheListedValues : Obligations.ResetStateHasTheListedValues := by
  rintro c epoch s rfl
  have hbuf := State.afterReset_buf c epoch
  refine ⟨List.length_replicate, fun a => ⟨by rw [State.len, hbuf]; rfl, hbuf a⟩,
    fun a k => by rw [hbuf]; exact storageWord_nil k, ?_⟩
  exact ⟨rfl, State.afterReset_status c epoch, rfl, rfl, rfl, rfl, rfl, rfl, rfl, rfl, rfl, rfl, rfl, rfl, rfl, rfl,
    fun _ => rfl⟩

/-- Register numbers from 9 on are reserved and read 0 (R30). -/
theorem State.hostReg_reserved (s : State) {n : BitVec 8} (h : 9 ≤ n.toNat) : s.hostReg n = 0 := by
  unfold State.hostReg
  split
  case h_10 => rfl
  all_goals omega

/-- Registers 0 to 5 of the map read 0 after reset (R30, R36). -/
theorem State.hostReg_afterReset (c : Config) (epoch : Nat) {n : BitVec 8} (h : n.toNat ≤ 5) :
    (State.afterReset c epoch).hostReg n = 0 := by
  unfold State.hostReg
  interval_cases n.toNat
  · exact State.afterReset_status c epoch
  all_goals rfl

/-- The configuration registers hold a legal block's parameters whole (R30, 00_scope.md R4). -/
theorem State.hostReg_config {s : State} (h : s.cfg.Legal) : (s.hostReg 0x06).toNat = s.cfg.nbuf ∧
    (s.hostReg 0x07).toNat = s.cfg.maxWords ∧ (s.hostReg 0x08).toNat = s.cfg.bmemBytes := by
  obtain ⟨hn, hw, hb⟩ := h
  exact ⟨Nat.mod_eq_of_lt (by omega), Nat.mod_eq_of_lt (by omega), Nat.mod_eq_of_lt (by omega)⟩

/-- A step with an interaction to come is that interaction. -/
theorem step_of_inputs {s : State} {e : HostEvent} {rest : List HostEvent} (h : s.inputs = e :: rest) :
    step s = hostTurn e { s with inputs := rest } := by
  rw [step, turn, h]

/-- Settles O23: the two interactions run, the listed registers by reading the map, the rest by the lemmas on its ranges. -/
theorem hostReadsTheRegisterMap : Obligations.HostReadsTheRegisterMap := by
  intro s rest
  refine ⟨fun n h => step_of_inputs h, fun n v h => step_of_inputs h, rfl, rfl, rfl, rfl, rfl, rfl, State.hostReg_config,
    fun n => s.hostReg_reserved, fun c epoch n => State.hostReg_afterReset c epoch⟩

/-- FAULT, NOELEM and ITV stand in bits 0 to 2 of STATUS (R29). -/
theorem State.status_flags (s : State) : s.status.getLsbD 0 = s.fault ∧ s.status.getLsbD 1 = s.noelem ∧
    s.status.getLsbD 2 = s.iter.itv := by
  simp only [State.status, BitVec.getLsbD_append, BitVec.getLsbD_ofBool]
  norm_num

/-- CAUSE stands in bits 15:8 of STATUS (R29). -/
theorem State.status_cause (s : State) : s.status.extractLsb' 8 8 = s.cause := by
  rw [State.status, BitVec.extractLsb'_append_eq_of_add_le (by decide), BitVec.extractLsb'_append_eq_of_le (by decide)]
  exact BitVec.extractLsb'_eq_self

/-- Bits 7:3 of STATUS read 0 (R29). -/
theorem State.status_reserved_low (s : State) : s.status.extractLsb' 3 5 = 0 := by
  rw [State.status, BitVec.extractLsb'_append_eq_of_add_le (by decide), BitVec.extractLsb'_append_eq_of_add_le (by decide),
    BitVec.extractLsb'_append_eq_of_le (by decide)]
  exact BitVec.extractLsb'_eq_self

/-- Bits 31:16 of STATUS read 0 (R29). -/
theorem State.status_reserved_high (s : State) : s.status.extractLsb' 16 16 = 0 := by
  rw [State.status, BitVec.extractLsb'_append_eq_of_le (by decide)]
  exact BitVec.extractLsb'_eq_self

/-- In a state that meets the invariant CAUSE is at most 5 (R29). -/
theorem State.Inv.cause_le {s : State} (h : s.Inv) : s.cause.toNat ≤ 5 := by
  obtain ⟨-, -, -, ⟨hclear, hset⟩, -, -⟩ := h
  rcases hf : s.fault with _ | _
  · obtain ⟨hcause, -⟩ := hclear hf
    rw [hcause]; decide
  · exact (hset hf).2.1

/-- In a state that meets the invariant CAUSE is 0 while FAULT is 0 (R29). -/
theorem State.Inv.cause_eq_zero {s : State} (h : s.Inv) (hf : s.fault = false) : s.cause = 0 := by
  obtain ⟨-, -, -, ⟨hclear, -⟩, -, -⟩ := h
  exact (hclear hf).1

/-- Settles O24: the fields by the layout of STATUS, the range of CAUSE by the invariant. -/
theorem statusWordHasTheListedFields : Obligations.StatusWordHasTheListedFields := by
  intro s
  obtain ⟨hfault, hnoelem, hitv⟩ := s.status_flags
  exact ⟨hfault, hnoelem, hitv, s.status_cause, s.status_reserved_low, s.status_reserved_high, hfault.symm,
    fun hs => ⟨hs.cause_le, fun hf => s.status_cause.trans (hs.cause_eq_zero hf)⟩, State.afterReset_status _ 0⟩

end Sys2Proof.Machine
end

section
/-! SUPPORT. BMEM and the byte mapping (20_memory.md): which commands change a byte, the host's port to BMEM and its one refusal,
and packing bits into bytes (R50 to R57, R64). -/

namespace Sys2Proof.Machine

/-- Only TOB's update stores a byte (R56). -/
theorem Update.bmem_eq {i : Instr} {s v : State} (h : Update i s v) (hi : ∀ a, i ≠ .tob a) : v.bmem = s.bmem := by
  cases h with
  | store a vs htob => exact absurd htob (hi a)
  | keep | setIter | writeOne | writeTwo => rfl

/-- A result stores no byte. -/
theorem ResultUpdate.bmem_eq {v u : State} {wr : Bool} (h : ResultUpdate v wr u) : u.bmem = v.bmem := by
  cases h <;> rfl

/-- A completed command other than TOB leaves every byte of BMEM as it was (R56). -/
theorem Completion.sameBmem {i : Instr} {s u : State} (h : Completion i s u) (hi : ∀ a, i ≠ .tob a) :
    SameBmem s u.counted := by
  have hframe := h.commandFrame
  obtain ⟨v, hv, hu⟩ := h
  exact sameBmem_of_eq (hu.bmem_eq.trans (hv.bmem_eq hi)) hframe.bmemEpoch

/-- Settles O21: discarding and fault entry touch neither BMEM nor the fields named, and a completion has its frame. -/
theorem onlyTobWritesBmem : Obligations.OnlyTobWritesBmem := by
  intro i s t h
  obtain ⟨-, rfl⟩ | ⟨-, x, rfl⟩ | ⟨-, u, hu, rfl⟩ := exec_cases h
  · exact ⟨fun _ _ => rfl, rfl, rfl, rfl, rfl⟩
  · exact ⟨fun _ _ => rfl, rfl, rfl, rfl, rfl⟩
  · have hframe := hu.commandFrame
    exact ⟨hu.sameBmem, hframe.cfg, hframe.bmemEpoch, hframe.inputs, hframe.reply⟩

/-- Discarding and going on both answer a next state. -/
theorem unlessFaulted_ne_refused (s u : State) (r : Refusal) : unlessFaulted s u ≠ .refused r := by
  rcases hf : s.fault with _ | _
  · rw [unlessFaulted_live hf]; nofun
  · rw [unlessFaulted_faulted hf]; nofun

/-- No submitted word is refused: it completes, raises or is discarded. -/
theorem submit_ne_refused (w : Cmd) (s : State) (r : Refusal) : submit w s ≠ .refused r := by
  rcases hd : decode s.cfg.nbuf w with e | i
  · rw [submit_error hd]
    exact unlessFaulted_ne_refused s _ r
  · obtain ⟨eff, hexec, -⟩ := exec_eq_settle i
    rw [submit_ok hd, hexec]
    exact unlessFaulted_ne_refused s _ r

/-- A host access to BMEM is refused exactly from `BMEM_BYTES` on (R57, R64). -/
theorem withinBmem_eq_refused_iff (s u : State) (a : Nat) (r : Refusal) :
    withinBmem s a u = .refused r ↔ r = .hostAddressOutsideBmem ∧ s.cfg.bmemBytes ≤ a := by
  obtain ⟨ha, hw⟩ | ⟨ha, hw⟩ := withinBmem_cases s a u
  · simp [hw, ha]
  · simp [hw, ha, eq_comm]

/-- Of the host's interactions only an access to BMEM outside its range is refused. -/
theorem hostTurn_eq_refused_iff (e : HostEvent) (s : State) (r : Refusal) :
    hostTurn e s = .refused r ↔
      r = .hostAddressOutsideBmem ∧ ∃ a, s.cfg.bmemBytes ≤ a ∧ (e = .bmemRead a ∨ ∃ v, e = .bmemWrite a v) := by
  cases e with
  | submit w => simp [hostTurn, submit_ne_refused]
  | readReg | writeReg | reset => simp [hostTurn]
  | bmemRead a => simp [hostTurn, withinBmem_eq_refused_iff]
  | bmemWrite a v => simp [hostTurn, withinBmem_eq_refused_iff]

/-- Settles O12: an idle step goes on, and any other step is the interaction that stands first. -/
theorem onlyHostAccessOutsideBmemIsRefused : Obligations.OnlyHostAccessOutsideBmemIsRefused := by
  intro s r
  obtain ⟨hin, hidle⟩ | ⟨e, es, hin, hturn⟩ := step_cases s
  · simp [hin, hidle]
  · rw [hturn, hostTurn_eq_refused_iff]
    simp [hin, exists_or]

/-- Below `BMEM_BYTES` a host access goes ahead (R64). -/
theorem withinBmem_of_lt {s : State} {a : Nat} (h : a < s.cfg.bmemBytes) (u : State) : withinBmem s a u = .next u := if_pos h

/-- From `BMEM_BYTES` on the host has no move (R57, R64). -/
theorem withinBmem_of_le {s : State} {a : Nat} (h : s.cfg.bmemBytes ≤ a) (u : State) :
    withinBmem s a u = .refused .hostAddressOutsideBmem := if_neg h.not_gt

/-- Settles O25: each access runs as the next interaction, and goes ahead or is refused by its address. -/
theorem hostReadsAndWritesBmemBytes : Obligations.HostReadsAndWritesBmemBytes := by
  intro s a v rest
  refine ⟨fun h ha => ?_, fun h ha => ?_, fun ha => ⟨fun h => ?_, fun h => ?_⟩⟩
  · exact ⟨{ s.memWrite a v with inputs := rest, reply := .nothing },
      (step_of_inputs h).trans (withinBmem_of_lt ha _), fun b => s.memRead_memWrite a b v, rfl⟩
  · exact (step_of_inputs h).trans (withinBmem_of_lt ha _)
  · exact (step_of_inputs h).trans (withinBmem_of_le ha _)
  · exact (step_of_inputs h).trans (withinBmem_of_le ha _)

/-- Bits `8q` to `8q + 7` of the bits of bytes are those of byte `q` (R52). -/
theorem slice_bitsOfBytes (ys : List Byte) {q : Nat} (hq : q < ys.length) :
    slice (bitsOfBytes ys) (q * 8) (q * 8 + 8) = bitsOfByte ys[q] :=
  flatMap_slice bitsOfByte 8 ys (fun y _ => bitsOfByte_length y) q hq

/-- Bit `k` of the bits of bytes is bit `7 − k mod 8` of byte `k / 8` (R52). -/
theorem bitAt_bitsOfBytes (ys : List Byte) {k : Nat} (hk : k < 8 * ys.length) :
    bitAt (bitsOfBytes ys) k = (ys.getD (k / 8) 0).getLsbD (7 - k % 8) := by
  have hq : k / 8 < ys.length := by omega
  have ht : k % 8 < 8 := Nat.mod_lt k (by decide)
  calc bitAt (bitsOfBytes ys) k
      = bitAt (bitsOfBytes ys) (k / 8 * 8 + k % 8) := by rw [Nat.div_add_mod']
    _ = bitAt (bitsOfByte ys[k / 8]) (k % 8) := by
        rw [← slice_bitsOfBytes ys hq, bitAt_slice _ _ _ _ (by omega)]
    _ = (ys.getD (k / 8) 0).getLsbD (7 - k % 8) := by
        rw [bitAt_bitsOfByte _ _ ht, List.getD_eq_getElem _ _ hq]

/-- Byte `q` of the bytes of bits is packed from bits `8q` to `8q + 7` (R52). -/
theorem bytesOfBits_getD (x : Bits) {q : Nat} (hq : q < ceilDiv x.length 8) :
    (bytesOfBits x).getD q 0 = byteOfBits (slice x (q * 8) (q * 8 + 8)) := by
  rw [List.getD_eq_getElem?_getD, bytesOfBits, List.getElem?_map, chunks_getElem? _ _ _ _ hq]
  rfl

/-- Bit `7 − t` of byte `q` of the bytes of bits is bit `8q + t`, 0 past the end (R52). -/
theorem getLsbD_bytesOfBits (x : Bits) {q t : Nat} (hq : q < ceilDiv x.length 8) (ht : t < 8) :
    ((bytesOfBits x).getD q 0).getLsbD (7 - t) = bitAt x (8 * q + t) := by
  rw [bytesOfBits_getD x hq, byteOfBits_getLsbD _ _ ht, bitAt_slice _ _ _ _ (by omega), Nat.mul_comm]

/-- The bits of `n` bytes fill `n` bytes (00_scope.md R7). -/
theorem ceilDiv_mul_eight (n : Nat) : ceilDiv (8 * n) 8 = n := by
  rw [ceilDiv]; omega

/-- The whole bytes that hold `n` bits have room for them and the zero padding of the last byte (R52). -/
theorem ceilDiv_eight_mul_eq_add_padding (n : Nat) : 8 * ceilDiv n 8 = n + (8 - n % 8) % 8 := by
  rw [ceilDiv]; omega

/-- Unpacking bytes and packing the bits gives the bytes back (R52). -/
theorem bytesOfBits_bitsOfBytes (ys : List Byte) : bytesOfBits (bitsOfBytes ys) = ys := by
  have hceil : ceilDiv (bitsOfBytes ys).length 8 = ys.length := by rw [bitsOfBytes_length, ceilDiv_mul_eight]
  refine List.ext_getElem ((bytesOfBits_length _).trans hceil) fun q hq hq' => ?_
  calc (bytesOfBits (bitsOfBytes ys))[q]
      = (bytesOfBits (bitsOfBytes ys)).getD q 0 := (List.getD_eq_getElem _ _ hq).symm
    _ = byteOfBits (bitsOfByte ys[q]) := by
        rw [bytesOfBits_getD _ (hq'.trans_eq hceil.symm), slice_bitsOfBytes ys hq']
    _ = ys[q] := byteOfBits_bitsOfByte _

/-- Bit `k` of the whole bytes that hold `x` is bit `k` of `x`, 0 past its end (R52). -/
theorem bitAt_bitsOfBytes_bytesOfBits (x : Bits) {k : Nat} (hk : k < 8 * ceilDiv x.length 8) :
    bitAt (bitsOfBytes (bytesOfBits x)) k = bitAt x k := by
  have hq : k / 8 < ceilDiv x.length 8 := by omega
  rw [bitAt_bitsOfBytes _ (by rwa [bytesOfBits_length]), getLsbD_bytesOfBits x hq (Nat.mod_lt k (by decide)), Nat.div_add_mod]

/-- Packing bits and unpacking the bytes gives the bits back with the zero padding of the last byte (R52). -/
theorem bitsOfBytes_bytesOfBits (x : Bits) :
    bitsOfBytes (bytesOfBits x) = x ++ List.replicate ((8 - x.length % 8) % 8) false := by
  have hlen : (bitsOfBytes (bytesOfBits x)).length = 8 * ceilDiv x.length 8 := by
    rw [bitsOfBytes_length, bytesOfBits_length]
  refine bits_ext ?_ fun k hk => ?_
  · rw [hlen, List.length_append, List.length_replicate, ceilDiv_eight_mul_eq_add_padding]
  · rw [bitAt_bitsOfBytes_bytesOfBits x (hk.trans_eq hlen), bitAt_append]
    split
    · rfl
    · rw [bitAt_of_le (by omega), bitAt_replicate, Bool.and_false]

/-- Settles O28: each direction by its bit formula, and the round trips from both. -/
theorem byteMappingIsMsbFirstAndRoundTrips : Obligations.ByteMappingIsMsbFirstAndRoundTrips :=
  ⟨fun ys _ => bitAt_bitsOfBytes ys, fun x _ _ => getLsbD_bytesOfBits x,
    fun ys => ⟨bitsOfBytes_length ys, bytesOfBits_bitsOfBytes ys⟩,
    fun x => ⟨bytesOfBits_length x, bitsOfBytes_bytesOfBits x⟩⟩

end Sys2Proof.Machine
end

section
/-! SUPPORT. The decoder against the opcode map (30_encoding.md R76 to R78): a row of the map accepts the fields that pass checks
1 to 3, those are exactly the fields of the commands it builds, and so a word is decoded to the one well-formed command it
encodes. -/

namespace Sys2Proof

/-- The row accepts the fields: its opcode, RSV 0 and every unused field 0 (checks 1 to 3 of R78). -/
def OpcodeRow.Accepts (r : OpcodeRow) (f : Fields) : Prop :=
  r.opc = f.opc ∧ f.rsv = 0 ∧ r.form.unusedZero f = true

/-- Each opcode is assigned to one row (R77). -/
theorem opcodeRow_eq_of_opc_eq {r r' : OpcodeRow} (h : r ∈ opcodeTable) (h' : r' ∈ opcodeTable) (ho : r.opc = r'.opc) :
    r = r' :=
  List.inj_on_of_nodup_map (f := OpcodeRow.opc) (by decide) h h' ho

/-- The row looked up has the opcode looked up. -/
theorem mem_opcodeTable_of_opcodeRow? {opc : BitVec 8} {r : OpcodeRow} (h : opcodeRow? opc = some r) :
    r ∈ opcodeTable ∧ r.opc = opc :=
  ⟨List.mem_of_find?_eq_some h, beq_iff_eq.mp (List.find?_some (p := fun r : OpcodeRow => r.opc == opc) h)⟩

/-- Every row is found by its opcode. -/
theorem opcodeRow?_of_mem {r : OpcodeRow} (hr : r ∈ opcodeTable) : opcodeRow? r.opc = some r := by
  have hsome : (opcodeRow? r.opc).isSome := List.find?_isSome.mpr ⟨r, hr, BEq.rfl⟩
  obtain ⟨r', h'⟩ := Option.isSome_iff_exists.mp hsome
  obtain ⟨hr', ho⟩ := mem_opcodeTable_of_opcodeRow? h'
  rw [h', opcodeRow_eq_of_opc_eq hr' hr ho]

/-- The fields an operand form keeps, at the given opcode: RSV and the fields it does not use are 0 (R83). -/
def Form.keep (m : Form) (opc : BitVec 8) (f : Fields) : Fields :=
  { imm := if m.usesI then f.imm else 0
    p := if m.usesP then f.p else 0
    v := m.usesV && f.v
    b := if m.usesB then f.b else 0
    a := if m.usesA then f.a else 0
    opc }

/-- The command a row builds has the row's opcode and every field the row's form uses (R76, R77). -/
theorem fields_build_eq_keep : ∀ r ∈ opcodeTable, ∀ f, (r.build f).fields = r.form.keep r.opc f := by
  simp only [opcodeTable, List.forall_mem_cons, List.not_mem_nil, IsEmpty.forall_iff, implies_true, and_true]
  and_intros <;> exact fun _ => rfl

/-- A form keeps fields as they are when RSV and the fields it does not use are 0. -/
theorem Form.keep_eq_self {m : Form} {f : Fields} (hr : f.rsv = 0) (hu : m.unusedZero f = true) : m.keep f.opc f = f := by
  obtain ⟨imm, rsv, p, v, b, a, opc⟩ := f
  obtain rfl : rsv = 0 := hr
  simp only [Form.unusedZero, Bool.and_eq_true, Bool.or_eq_true, beq_iff_eq, Bool.not_eq_true'] at hu
  obtain ⟨⟨⟨⟨ha, hb⟩, hv⟩, hp⟩, hi⟩ := hu
  simp only [Form.keep, Fields.mk.injEq, true_and, and_true, ite_eq_left_iff, Bool.and_eq_right_iff_imp]
  exact ⟨fun h => (hi.resolve_left h).symm, fun h => (hp.resolve_left h).symm, fun h => hv.resolve_right (ne_false_of_eq_true h),
    fun h => (hb.resolve_left h).symm, fun h => (ha.resolve_left h).symm⟩

/-- The fields a row accepts are those of the command it builds from them. -/
theorem OpcodeRow.Accepts.fields_build {r : OpcodeRow} {f : Fields} (h : r.Accepts f) (hr : r ∈ opcodeTable) :
    (r.build f).fields = f := by
  obtain ⟨hopc, hrsv, hunused⟩ := h
  rw [fields_build_eq_keep r hr, hopc, Form.keep_eq_self hrsv hunused]

/-- Every command has a row that accepts its fields and builds it from them. -/
theorem Instr.exists_row (i : Instr) : ∃ r ∈ opcodeTable, r.Accepts i.fields ∧ r.build i.fields = i := by
  have hrow : ∃ r, opcodeRow? i.fields.opc = some r ∧ i.fields.rsv = 0 ∧ r.form.unusedZero i.fields = true ∧
      r.build i.fields = i := by
    cases i <;> exact ⟨_, rfl, rfl, rfl, rfl⟩
  obtain ⟨r, hfind, hrsv, hunused, hbuild⟩ := hrow
  obtain ⟨hr, hopc⟩ := mem_opcodeTable_of_opcodeRow? hfind
  exact ⟨r, hr, ⟨hopc, hrsv, hunused⟩, hbuild⟩

/-- A row that accepts the fields of a command builds that command: no other row has its opcode. -/
theorem OpcodeRow.Accepts.build_fields {r : OpcodeRow} {i : Instr} (h : r.Accepts i.fields) (hr : r ∈ opcodeTable) :
    r.build i.fields = i := by
  obtain ⟨r', hr', hacc, hbuild⟩ := i.exists_row
  rwa [opcodeRow_eq_of_opc_eq hr hr' (h.1.trans hacc.1.symm)]

/-- The fields of a word are those of a command exactly if some row accepts them. -/
theorem exists_row_accepts_iff {f : Fields} : (∃ r ∈ opcodeTable, r.Accepts f) ↔ ∃ i : Instr, i.fields = f := by
  constructor
  · rintro ⟨r, hr, h⟩
    exact ⟨r.build f, h.fields_build hr⟩
  · rintro ⟨i, rfl⟩
    obtain ⟨r, hr, h, -⟩ := i.exists_row
    exact ⟨r, hr, h⟩

theorem Fields.ofWord_encode (i : Instr) : Fields.ofWord (encode i) = i.fields := Fields.ofWord_toWord i.fields

theorem encode_eq_iff {i : Instr} {w : Cmd} : encode i = w ↔ i.fields = Fields.ofWord w := by
  constructor
  · rintro rfl
    exact (Fields.ofWord_encode i).symm
  · intro h
    rw [encode, h, Fields.toWord_ofWord]

theorem encode_injective {i j : Instr} (h : encode i = encode j) : i = j := by
  have hf : i.fields = j.fields := by rw [encode_eq_iff.mp h, Fields.ofWord_encode]
  obtain ⟨r, hr, hacc, hbuild⟩ := i.exists_row
  calc i = r.build j.fields := by rw [← hf, hbuild]
    _ = j := (hf ▸ hacc : r.Accepts j.fields).build_fields hr

/-- Checks 4 to 6 pass exactly on a well-formed command, and leave it as it is. -/
theorem checkOperands_eq_ok_iff {n : Nat} {i j : Instr} : checkOperands n i = .ok j ↔ i = j ∧ i.wellFormed n = true := by
  cases h4 : i.slotsExist n <;> cases h5 : i.paramLegal <;> cases h6 : i.slotsDistinct <;>
    simp [checkOperands, Instr.wellFormed, h4, h5, h6]

/-- The decoder answers what the row that passes checks 1 to 3 builds, if that is well-formed. -/
theorem decode_eq_ok_iff_row {n : Nat} {w : Cmd} {i : Instr} :
    decode n w = .ok i ↔
      ∃ r ∈ opcodeTable, r.Accepts (Fields.ofWord w) ∧ r.build (Fields.ofWord w) = i ∧ i.wellFormed n = true := by
  constructor
  · intro h
    unfold decode at h
    split at h
    · cases h
    next r hrow =>
      obtain ⟨hr, hopc⟩ := mem_opcodeTable_of_opcodeRow? hrow
      split_ifs at h with hrsv hunused
      obtain ⟨rfl, hw⟩ := checkOperands_eq_ok_iff.mp h
      exact ⟨r, hr, ⟨hopc, not_ne_iff.mp hrsv, eq_true_of_ne_false hunused⟩, rfl, hw⟩
  · rintro ⟨r, hr, ⟨hopc, hrsv, hunused⟩, rfl, hw⟩
    simp [decode, ← hopc, opcodeRow?_of_mem hr, hrsv, hunused, checkOperands_eq_ok_iff, hw]

/-- The decoder accepts a word as the well-formed command it encodes, and as nothing else (R78, R83). -/
theorem decode_eq_ok_iff {n : Nat} {w : Cmd} {i : Instr} : decode n w = .ok i ↔ encode i = w ∧ i.wellFormed n = true := by
  rw [decode_eq_ok_iff_row, encode_eq_iff]
  constructor
  · rintro ⟨r, hr, h, rfl, hw⟩
    exact ⟨h.fields_build hr, hw⟩
  · rintro ⟨hf, hw⟩
    obtain ⟨r, hr, h, hbuild⟩ := i.exists_row
    rw [← hf]
    exact ⟨r, hr, h, hbuild, hw⟩

end Sys2Proof
end

section
/-! SUPPORT. The layout of R71 as a sum of fields and as masks, and the statements about encoding (30_encoding.md). -/

namespace Sys2Proof

/-- The word of fields with RSV 0 is the field sum of R71. -/
theorem Fields.toWord_eq_fieldSum (opc : BitVec 8) (a b : SlotField) (v : Bool) (p : ParamField) (imm : ImmField) :
    Fields.toWord { opc, a, b, v, p, imm } = Machine.fieldSum opc a b v p imm := by
  refine (BitVec.setWidth_eq _).symm.trans ?_
  simp only [Fields.toWord, Machine.fieldSum, BitVec.setWidth_append_eq_shiftLeft_setWidth_or, BitVec.or_assoc]
  simp

/-- The conjunction of two words is taken field by field (R71). -/
theorem Fields.toWord_and (f g : Fields) :
    f.toWord &&& g.toWord = Fields.toWord
      { imm := f.imm &&& g.imm, rsv := f.rsv &&& g.rsv, p := f.p &&& g.p, v := f.v && g.v, b := f.b &&& g.b, a := f.a &&& g.a,
        opc := f.opc &&& g.opc } := by
  simp only [Fields.toWord, ← BitVec.and_append, ← BitVec.ofBool_and_ofBool]

theorem Fields.toWord_injective : Function.Injective Fields.toWord := Function.LeftInverse.injective Fields.ofWord_toWord

/-- A field of the mask of spec/opcode_table.json: 0 where the form uses the field, all ones where it does not. -/
def maskField (used : Bool) {n : Nat} : BitVec n := if used then 0 else BitVec.allOnes n

theorem and_maskField_eq_zero_iff {n : Nat} (used : Bool) (x : BitVec n) :
    x &&& maskField used = 0 ↔ (used || x == 0) = true := by
  cases used <;> simp [maskField]

theorem and_not_eq_false_iff (used v : Bool) : (v && !used) = false ↔ (used || !v) = true := by
  cases used <;> simp

/-- The mask of a row: the bits of OPC, of RSV and of the fields its form does not use (checks 1 to 3 of R78). -/
def Form.mask (m : Form) : Fields :=
  { imm := maskField m.usesI, rsv := BitVec.allOnes 10, p := maskField m.usesP, v := !m.usesV, b := maskField m.usesB,
    a := maskField m.usesA, opc := BitVec.allOnes 8 }

/-- A row accepts the fields of a word exactly if the word is the row's opcode under the row's mask. -/
theorem OpcodeRow.accepts_ofWord_iff (r : OpcodeRow) (w : Cmd) :
    r.Accepts (Fields.ofWord w) ↔ w &&& r.form.mask.toWord = r.opc.setWidth 64 := by
  have hopc : r.opc.setWidth 64 = Fields.toWord { opc := r.opc } := by
    rw [Fields.toWord_eq_fieldSum]; simp [Machine.fieldSum]
  rw [hopc, ← Fields.toWord_ofWord w, Fields.toWord_and, Fields.toWord_injective.eq_iff, Fields.ofWord_toWord]
  simp only [Fields.mk.injEq, Form.mask, and_maskField_eq_zero_iff, OpcodeRow.Accepts, Form.unusedZero, BitVec.and_allOnes,
    and_not_eq_false_iff, Bool.and_eq_true]
  tauto

end Sys2Proof

namespace Sys2Proof.Machine

/-- The rows of spec/opcode_table.json are those of the opcode map, each with the mask of its form. -/
theorem tableRows_eq_map_opcodeTable :
    tableRows = opcodeTable.map fun r => (r.mnemonic, r.opc.setWidth 64, r.form.mask.toWord) := by decide

/-- A word matches a row of spec/opcode_table.json exactly if it encodes a command, legal operands or not. -/
theorem matchesTable_iff (w : Cmd) : MatchesTable w ↔ ∃ i : Instr, encode i = w := by
  simp only [encode_eq_iff, ← exists_row_accepts_iff, OpcodeRow.accepts_ofWord_iff, MatchesTable, tableRows_eq_map_opcodeTable,
    List.mem_map, exists_exists_and_eq_and]

/-- Settles O1, from what the decoder accepts. -/
theorem decodeReadsBackEveryCommand : Obligations.DecodeReadsBackEveryCommand :=
  fun _ _ hw => decode_eq_ok_iff.mpr ⟨rfl, hw⟩

/-- Settles O2, from what the decoder accepts. -/
theorem acceptedWordIsTheCommandsEncoding : Obligations.AcceptedWordIsTheCommandsEncoding :=
  fun _ _ _ => decode_eq_ok_iff.mp

/-- Settles O3, the field sum of R71 at the fields of each command. -/
theorem commandWordsAreTheFieldSums : Obligations.CommandWordsAreTheFieldSums := by
  intro a b v p imm
  simp only [← Fields.toWord_eq_fieldSum]
  and_intros <;> rfl

/-- Settles O4: a word matches the table exactly if it encodes a command, and it encodes only one. -/
theorem decoderAcceptsExactlyTheLegalWords : Obligations.DecoderAcceptsExactlyTheLegalWords := by
  intro n w
  simp only [decode_eq_ok_iff, matchesTable_iff]
  constructor
  · rintro ⟨i, rfl, hw⟩
    exact ⟨⟨i, rfl⟩, fun j hj => encode_injective hj ▸ hw⟩
  · rintro ⟨⟨i, hi⟩, hall⟩
    exact ⟨i, hi, hall i hi⟩

/-- Settles O5: ten fixed words. -/
theorem sampleWordsDecodeAsListed : Obligations.SampleWordsDecodeAsListed := by
  unfold Obligations.SampleWordsDecodeAsListed
  decide

end Sys2Proof.Machine
end

section
/-! SUPPORT. The outcomes of a command in the terms of Safety.lean: it raises IllegalCommand for a slot field that names no slot,
raises what its effect raises, or completes with one slot written or a number returned (30_encoding.md R78, 60_exceptions.md
R310, 10_state.md R25 to R28). -/

namespace Sys2Proof.Machine

/-- A command whose slot fields all name slots passes check 4 of R78, and is well-formed if it passes checks 5 and 6. -/
theorem wellFormed_of_slotsExist {n : Nat} {i : Instr} (h4 : ∀ c ∈ i.slotFields, c.toNat < n) (h5 : i.paramLegal = true)
    (h6 : i.slotsDistinct = true) : i.wellFormed n = true := by
  have hexist : i.slotsExist n = true := List.all_eq_true.mpr fun c hc => decide_eq_true (h4 c hc)
  rw [Instr.wellFormed, hexist, h5, h6]
  rfl

/-- A command with one slot field that names a slot is well-formed if it passes checks 5 and 6 of R78. -/
theorem wellFormed_of_slotExists {n : Nat} {i : Instr} {a : SlotField} (hi : i.slotFields = [a]) (ha : a.toNat < n)
    (h5 : i.paramLegal = true) (h6 : i.slotsDistinct = true) : i.wellFormed n = true :=
  wellFormed_of_slotsExist (by rw [hi]; exact List.forall_mem_singleton.mpr ha) h5 h6

/-- A slot field that names no slot fails check 4 of R78. -/
theorem wellFormed_eq_false_of_noSuchSlot {n : Nat} {i : Instr} {c : SlotField} (hc : c ∈ i.slotFields) (hn : n ≤ c.toNat) :
    i.wellFormed n = false := by
  have hmissing : i.slotsExist n = false := List.all_eq_false.mpr ⟨c, hc, by simpa using hn⟩
  rw [Instr.wellFormed, hmissing]
  rfl

/-- Operands that fail checks 4 to 6 of R78 raise IllegalCommand, cause 1, for every command. -/
theorem exec_faultsAs_of_illFormed {i : Instr} {s : State} (hf : s.fault = false) (hw : i.wellFormed s.cfg.nbuf = false) :
    FaultsAs 1 (encode i) s (exec i s) := by
  obtain ⟨eff, hexec, -⟩ := exec_eq_command i
  rw [hexec, command_illFormed hf hw]
  exact faultsAs_raise .illegalCommand (encode i) s

/-- A slot field that names no slot raises IllegalCommand, cause 1, for every command. -/
theorem exec_faultsAs_of_noSuchSlot {i : Instr} {s : State} (hf : s.fault = false) {c : SlotField} (hc : c ∈ i.slotFields)
    (hn : s.cfg.nbuf ≤ c.toNat) : FaultsAs 1 (encode i) s (exec i s) :=
  exec_faultsAs_of_illFormed hf (wellFormed_eq_false_of_noSuchSlot hc hn)

section
variable {i : Instr} {s : State} {eff : State → Except Exc State} (hexec : ∀ s, exec i s = command i s eff)
  (hf : s.fault = false) (hw : i.wellFormed s.cfg.nbuf = true)
include hexec hf hw

/-- What the effect raises becomes fault entry with its cause (60_exceptions.md R310). -/
theorem exec_faultsAs_of_error (x : Exc) (he : eff s = .error x) : FaultsAs x.code (encode i) s (exec i s) := by
  rw [hexec, command_error hf hw he]
  exact faultsAs_raise x (encode i) s

/-- A command completes with what its effect gives, counted (10_state.md R28). -/
theorem exec_eq_counted {u : State} (he : eff s = .ok u) : exec i s = .next u.counted :=
  (hexec s).trans (command_ok hf hw he)

/-- A command whose effect is a write to an existing slot leaves the slot as written and everything else in the frame of R25. -/
theorem exec_writesSlot (hs : s.SlotsOk) {a : SlotField} (ha : a.toNat < s.cfg.nbuf) {x : Bits}
    (he : eff s = .ok (s.writeBuf a x)) :
    ∃ t, exec i s = .next t ∧ t.buf a = x ∧ WriterFrame [a] s t :=
  ⟨_, exec_eq_counted hexec hf hw he, s.writeBuf_buf_same a x (ha.trans_eq hs.1.symm), writerFrame_writeBuf s a x⟩

/-- A command whose effect is a number below 2^32 returns it and leaves everything else. -/
theorem exec_returns {n : Nat} (hn : n < 2 ^ 32) (he : eff s = .ok (s.withRes n)) :
    ∃ t, exec i s = .next t ∧ Returns n t ∧ ReaderFrame s t :=
  ⟨_, exec_eq_counted hexec hf hw he, returns_withRes s hn, readerFrame_withRes s n⟩

end

/-- A slot write behind the capacity guard: it happens up to `MAXBITS`, raises CapacityOverflow, cause 3, above it, and raises
IllegalCommand, cause 1, when the command's one slot field names no slot. -/
theorem exec_writesSlot_or_overflows {i : Instr} {s : State} {eff : State → Except Exc State} {a : SlotField} {n : Nat}
    {x : Bits} (hexec : ∀ s, exec i s = command i s eff) (hf : s.fault = false) (hs : s.SlotsOk) (hi : i.slotFields = [a])
    (h5 : i.paramLegal = true) (h6 : i.slotsDistinct = true)
    (he : eff s = if n > s.cfg.maxBits then .error .capacityOverflow else .ok (s.writeBuf a x)) :
    (a.toNat < s.cfg.nbuf → n ≤ s.cfg.maxBits → ∃ t, exec i s = .next t ∧ t.buf a = x ∧ WriterFrame [a] s t) ∧
    (a.toNat < s.cfg.nbuf → s.cfg.maxBits < n → FaultsAs 3 (encode i) s (exec i s)) ∧
    (s.cfg.nbuf ≤ a.toNat → FaultsAs 1 (encode i) s (exec i s)) := by
  have hw (ha : a.toNat < s.cfg.nbuf) : i.wellFormed s.cfg.nbuf = true := wellFormed_of_slotExists hi ha h5 h6
  refine ⟨fun ha hcap => ?_, fun ha hcap => ?_, fun ha => ?_⟩
  · exact exec_writesSlot hexec hf (hw ha) hs ha (he.trans (if_neg hcap.not_gt))
  · exact exec_faultsAs_of_error hexec hf (hw ha) .capacityOverflow (he.trans (if_pos hcap))
  · exact exec_faultsAs_of_noSuchSlot hf (hi ▸ List.mem_singleton_self a) ha

/-- In a state that meets the invariant a slot's length is below 2^32, so RES holds it whole (00_scope.md R4). -/
theorem State.Inv.len_lt {s : State} (h : s.Inv) (a : SlotField) : s.len a < 2 ^ 32 := by
  obtain ⟨hcfg, hslots, -⟩ := h
  exact (hslots.len_le a).trans_lt hcfg.maxBits_lt

end Sys2Proof.Machine
end

section
/-! SUPPORT. The statements about construction, byte marshaling, copy and length (41_construction.md). In each the command's word
is read back by `Fields.ofWord_encode`, and each outcome is one of those above. -/

namespace Sys2Proof.Machine

/-- The bits FROMB loads: bit `k` of bytes `0` to `n − 1` of BMEM is bit `7 − k mod 8` of byte `k / 8` (R52, R103). -/
theorem bitAt_bitsOfBytes_memRead (s : State) {n k : Nat} (hk : k < 8 * n) :
    bitAt (bitsOfBytes ((List.range n).map s.memRead)) k = (s.memRead (k / 8)).getLsbD (7 - k % 8) := by
  have hq : k / 8 < n := by omega
  rw [bitAt_bitsOfBytes _ (by simpa using hk), List.getD_eq_getElem _ _ (by simpa using hq), List.getElem_map,
    List.getElem_range]

/-- Settles O32: the two guards in their order, and the loaded bits by the byte mapping. -/
theorem frombLoadsBmemBytes : Obligations.FrombLoadsBmemBytes := by
  intro s a n hs hf
  obtain ⟨-, hslots, -⟩ := hs
  have hw (ha : a.toNat < s.cfg.nbuf) : (Instr.fromb a n).wellFormed s.cfg.nbuf = true :=
    wellFormed_of_slotExists rfl ha rfl rfl
  refine ⟨Fields.ofWord_encode _, fun ha hport hcap => ?_, fun ha hport => ?_, fun ha hport hcap => ?_, fun ha => ?_⟩
  · obtain ⟨t, ht, hbuf, hframe⟩ :=
      exec_writesSlot (fun _ => rfl) hf (hw ha) hslots ha ((if_neg hport.not_gt).trans (if_neg hcap.not_gt))
    refine ⟨t, ht, ?_, fun k hk => ?_, hframe⟩
    · rw [State.len, hbuf, bitsOfBytes_length, List.length_map, List.length_range]
    · rw [hbuf, bitAt_bitsOfBytes_memRead s hk]
  · exact exec_faultsAs_of_error (fun _ => rfl) hf (hw ha) .portRangeError (if_pos hport)
  · exact exec_faultsAs_of_error (fun _ => rfl) hf (hw ha) .capacityOverflow ((if_neg hport.not_gt).trans (if_pos hcap))
  · exact exec_faultsAs_of_noSuchSlot hf (List.mem_singleton_self a) ha

/-- A byte that TOB stores for `x` reads as packed from `x` (R52, R104). -/
theorem State.memRead_storeBits (s : State) (x : Bits) {q : Nat} (hq : q < ceilDiv x.length 8) :
    (s.memWriteBytes 0 (bytesOfBits x)).memRead q = (bytesOfBits x).getD q 0 := by
  rw [State.memRead_memWriteBytes, if_pos ⟨Nat.zero_le q, by rwa [Nat.zero_add, bytesOfBits_length]⟩, Nat.sub_zero]

/-- A byte past those that TOB stores for `x` reads as before (R56, R104). -/
theorem State.memRead_storeBits_of_le (s : State) (x : Bits) {q : Nat} (hq : ceilDiv x.length 8 ≤ q) :
    (s.memWriteBytes 0 (bytesOfBits x)).memRead q = s.memRead q := by
  rw [State.memRead_memWriteBytes, bytesOfBits_length, if_neg (by omega)]

/-- A sequence read with an explicit 0 past its end. -/
theorem bitAt_eq_ite (x : Bits) (i : Nat) : bitAt x i = if i < x.length then bitAt x i else false := by
  split
  · rfl
  · exact bitAt_of_le (by omega)

/-- The frame of a command that stores bytes and returns a number: no slot is written. -/
theorem commandFrame_memWriteBytes_withRes (s : State) (a : Nat) (vs : List Byte) (n : Nat) :
    CommandFrame [] s ((s.memWriteBytes a vs).withRes n).counted :=
  commandFrame_counted rfl (fun _ _ => rfl) rfl rfl rfl rfl rfl rfl rfl rfl rfl

/-- Settles O33: the stored bytes by the byte mapping, and their number is below 2^32 because it is at most the length. -/
theorem tobStoresTheSlotAsBytes : Obligations.TobStoresTheSlotAsBytes := by
  intro s a hs hf
  have hw (ha : a.toNat < s.cfg.nbuf) : (Instr.tob a).wellFormed s.cfg.nbuf = true :=
    wellFormed_of_slotExists rfl ha rfl rfl
  refine ⟨Fields.ofWord_encode _, fun ha hport => ?_, fun ha hport => ?_, fun ha => ?_⟩
  · have hlen := hs.len_lt a
    have hcount : ceilDiv (s.len a) 8 < 2 ^ 32 := by rw [ceilDiv]; omega
    refine ⟨_, exec_eq_counted (fun _ => rfl) hf (hw ha) (if_neg hport.not_gt), returns_withRes _ hcount, fun q k hq hk => ?_,
      fun q hq => ?_, commandFrame_memWriteBytes_withRes s 0 _ _, rfl⟩
    · calc ((s.memWriteBytes 0 (bytesOfBits (s.buf a))).memRead q).getLsbD (7 - k)
          = ((bytesOfBits (s.buf a)).getD q 0).getLsbD (7 - k) := by rw [s.memRead_storeBits _ hq]
        _ = bitAt (s.buf a) (8 * q + k) := getLsbD_bytesOfBits _ hq hk
        _ = if 8 * q + k < s.len a then bitAt (s.buf a) (8 * q + k) else false := bitAt_eq_ite _ _
    · exact s.memRead_storeBits_of_le (s.buf a) hq
  · exact exec_faultsAs_of_error (fun _ => rfl) hf (hw ha) .portRangeError (if_pos hport)
  · exact exec_faultsAs_of_noSuchSlot hf (List.mem_singleton_self a) ha

/-- Settles O29: an unconditional slot write. -/
theorem newEmptiesItsSlot : Obligations.NewEmptiesItsSlot := by
  intro s a hs hf
  obtain ⟨-, hslots, -⟩ := hs
  refine ⟨Fields.ofWord_encode _, fun ha => ?_, exec_faultsAs_of_noSuchSlot hf (List.mem_singleton_self a)⟩
  exact exec_writesSlot (fun _ => rfl) hf (wellFormed_of_slotExists rfl ha rfl rfl) hslots ha rfl

/-- Settles O30: the capacity guard stands before the write of the empty sequence. -/
theorem wcapEmptiesItsSlotOrOverflows : Obligations.WcapEmptiesItsSlotOrOverflows := by
  intro s a n hs hf
  obtain ⟨-, hslots, -⟩ := hs
  exact ⟨Fields.ofWord_encode _, exec_writesSlot_or_overflows (fun _ => rfl) hf hslots rfl rfl rfl rfl⟩

/-- Settles O31: the capacity guard stands before the write of `n` copies. -/
theorem fillReplicatesTheBit : Obligations.FillReplicatesTheBit := by
  intro s a n v hs hf
  obtain ⟨-, hslots, -⟩ := hs
  exact ⟨Fields.ofWord_encode _, exec_writesSlot_or_overflows (fun _ => rfl) hf hslots rfl rfl rfl rfl⟩

/-- Settles O34: the source is slot `a` itself, which then holds what was written, or a slot outside the frame's list. -/
theorem cloneCopiesTheSlot : Obligations.CloneCopiesTheSlot := by
  intro s a b hs hf
  obtain ⟨-, hslots, -⟩ := hs
  refine ⟨Fields.ofWord_encode _, fun ha hb => ?_, fun hmissing => ?_⟩
  · have hw : (Instr.clone a b).wellFormed s.cfg.nbuf = true :=
      wellFormed_of_slotsExist (List.forall_mem_cons.mpr ⟨ha, List.forall_mem_singleton.mpr hb⟩) rfl rfl
    obtain ⟨t, ht, hbuf, hframe⟩ := exec_writesSlot (fun _ => rfl) hf hw hslots ha rfl
    refine ⟨t, ht, hbuf, ?_, hframe⟩
    rcases eq_or_ne b a with rfl | hne
    · exact hbuf
    · obtain ⟨hcommand, -⟩ := hframe
      exact hcommand.slots b (List.mem_singleton.not.mpr hne)
  · rcases hmissing with ha | hb
    · exact exec_faultsAs_of_noSuchSlot hf (List.mem_cons_self ..) ha
    · exact exec_faultsAs_of_noSuchSlot hf (List.mem_cons_of_mem _ (List.mem_singleton_self b)) hb

/-- Settles O35: the length is below 2^32, so it is returned whole. -/
theorem lenReturnsTheLength : Obligations.LenReturnsTheLength := by
  intro s a hs hf
  refine ⟨Fields.ofWord_encode _, fun ha => ?_, exec_faultsAs_of_noSuchSlot hf (List.mem_singleton_self a)⟩
  exact exec_returns (fun _ => rfl) hf (wellFormed_of_slotExists rfl ha rfl rfl) (hs.len_lt a) rfl

end Sys2Proof.Machine
end

section
/-! SUPPORT. The statements about bit access (42_bit_access.md), and for them: a replaced and a last element of a sequence, and the
outcome of a command that writes one slot and a result. In each the command's word is read back by `Fields.ofWord_encode`. -/

namespace Sys2Proof.Machine

/-- The elements of `x with [j] = v` (00_scope.md R8), for an index of `x`. -/
theorem bitAt_set {x : Bits} {j : Nat} (hj : j < x.length) (v : Bool) (k : Nat) :
    bitAt (x.set j v) k = if k = j then v else bitAt x k := by
  simp only [bitAt, List.getD_eq_getElem?_getD]
  split
  · next h => rw [h, List.getElem?_set_self hj, Option.getD_some]
  · next h => rw [List.getElem?_set_ne (Ne.symm h)]

/-- Taking the last element off a sequence leaves what it was put on. -/
theorem slice_length_sub_one_append_singleton (x : Bits) (v : Bool) :
    slice (x ++ [v]) 0 ((x ++ [v]).length - 1) = x := by
  rw [slice_zero, List.length_append, List.length_singleton, Nat.add_sub_cancel, List.take_left]

/-- The last element of a sequence is the one put on it. -/
theorem bitAt_length_sub_one_append_singleton (x : Bits) (v : Bool) : bitAt (x ++ [v]) ((x ++ [v]).length - 1) = v := by
  rw [List.length_append, List.length_singleton, Nat.add_sub_cancel, bitAt_append, if_neg (lt_irrefl _), Nat.sub_self]
  rfl

/-- A truth value is a number that RES holds whole (10_state.md R26). -/
theorem bool_toNat_lt_two_pow_32 (v : Bool) : v.toNat < 2 ^ 32 := v.toNat_lt.trans (by decide)

/-- A command whose effect is a write to an existing slot and then a result leaves the slot as written, and everything but RES and
NOELEM in the frame of R25. -/
theorem exec_writesSlot_withResult {i : Instr} {s u : State} {eff : State → Except Exc State} {a : SlotField} {x : Bits}
    {wr : Bool} (hexec : ∀ s, exec i s = command i s eff) (hf : s.fault = false) (hw : i.wellFormed s.cfg.nbuf = true)
    (hs : s.SlotsOk) (ha : a.toNat < s.cfg.nbuf) (he : eff s = .ok u) (hu : ResultUpdate (s.writeBuf a x) wr u) :
    exec i s = .next u.counted ∧ u.counted.buf a = x ∧
      CommandFrame [a] s u.counted ∧ SameBmem s u.counted ∧ IterAfterWriting [a] s u.counted := by
  have hbuf : (s.writeBuf a x).buf a = x := s.writeBuf_buf_same a x (ha.trans_eq hs.1.symm)
  refine ⟨exec_eq_counted hexec hf hw he, ?_, hu.commandFrame (commandFrame_writeBuf s a x), ?_, ?_⟩
  · cases hu <;> exact hbuf
  · cases hu <;> exact sameBmem_of_eq rfl rfl
  · cases hu <;> exact iterAfterWriting_of_writeBuf a x rfl

/-- Settles O37: below the length the write is `buf[a] with [i] = v`, whose elements `bitAt_set` gives. -/
theorem setReplacesOneBitOrRaisesBounds : Obligations.SetReplacesOneBitOrRaisesBounds := by
  intro s a i v hs hf
  obtain ⟨-, hslots, -⟩ := hs
  have hw (ha : a.toNat < s.cfg.nbuf) : (Instr.set a i v).wellFormed s.cfg.nbuf = true :=
    wellFormed_of_slotExists rfl ha rfl rfl
  refine ⟨Fields.ofWord_encode _, fun ha hi => ?_, fun ha hi => ?_, exec_faultsAs_of_noSuchSlot hf (List.mem_singleton_self a)⟩
  · obtain ⟨t, ht, hbuf, hframe⟩ := exec_writesSlot (fun _ => rfl) hf (hw ha) hslots ha (if_neg hi.not_ge)
    refine ⟨t, ht, ?_, fun k _ => ?_, hframe⟩
    · rw [State.len, hbuf, List.length_set, State.len]
    · rw [hbuf, bitAt_set hi]
  · exact exec_faultsAs_of_error (fun _ => rfl) hf (hw ha) .boundsError (if_pos hi)

/-- Settles O39: both branches, on an empty slot and on one that ends in a bit, write the slot and then their result. -/
theorem popTakesTheTailBit : Obligations.PopTakesTheTailBit := by
  intro s a hs hf
  obtain ⟨-, hslots, -⟩ := hs
  refine ⟨Fields.ofWord_encode _, fun ha => ?_, exec_faultsAs_of_noSuchSlot hf (List.mem_singleton_self a)⟩
  have hw : (Instr.pop a).wellFormed s.cfg.nbuf = true := wellFormed_of_slotExists rfl ha rfl rfl
  by_cases hlen : s.len a = 0
  · have hnil : s.buf a = [] := List.length_eq_zero_iff.mp hlen
    obtain ⟨hnext, hbuf, hframe⟩ :=
      exec_writesSlot_withResult (fun _ => rfl) hf hw hslots ha (if_pos hlen) .noElement
    exact ⟨_, hnext, fun _ => ⟨hbuf, rfl, rfl⟩,
      fun y w hy => absurd (hy.symm.trans hnil) (by simp), hframe⟩
  · obtain ⟨hnext, hbuf, hframe⟩ :=
      exec_writesSlot_withResult (fun _ => rfl) hf hw hslots ha (if_neg hlen) (.number _)
    refine ⟨_, hnext, fun hnil => absurd (List.length_eq_zero_iff.mpr hnil) hlen, fun y w hy => ⟨?_, ?_⟩, hframe⟩
    · rw [hbuf, State.len, hy, slice_length_sub_one_append_singleton]
    · rw [State.len, hy, bitAt_length_sub_one_append_singleton]
      exact returns_withRes _ (bool_toNat_lt_two_pow_32 w)

/-- Settles O36: below the length the bit is returned as a number, and from the length on the guard raises. -/
theorem getReturnsTheBitOrRaisesBounds : Obligations.GetReturnsTheBitOrRaisesBounds := by
  intro s a i hs hf
  have hw (ha : a.toNat < s.cfg.nbuf) : (Instr.get a i).wellFormed s.cfg.nbuf = true :=
    wellFormed_of_slotExists rfl ha rfl rfl
  refine ⟨Fields.ofWord_encode _, fun ha hi => ?_, fun ha hi => ?_, exec_faultsAs_of_noSuchSlot hf (List.mem_singleton_self a)⟩
  · exact exec_returns (fun _ => rfl) hf (hw ha) (bool_toNat_lt_two_pow_32 _) (if_neg hi.not_ge)
  · exact exec_faultsAs_of_error (fun _ => rfl) hf (hw ha) .boundsError (if_pos hi)

/-- Settles O38: the capacity guard stands before the write; it fires at `MAXBITS`, since one more bit does not fit. -/
theorem pushAppendsOneBit : Obligations.PushAppendsOneBit := by
  intro s a v hs hf
  obtain ⟨-, hslots, -⟩ := hs
  obtain ⟨hwrites, hoverflows, hmissing⟩ :=
    exec_writesSlot_or_overflows (i := .push a v) (n := s.len a + 1) (fun _ => rfl) hf hslots rfl rfl rfl rfl
  exact ⟨Fields.ofWord_encode _, hwrites, fun ha hfull => hoverflows ha (Nat.lt_succ_of_le hfull.ge), hmissing⟩

end Sys2Proof.Machine
end

section
/-! SUPPORT. The statements about the structural operations (43_structural.md), and for them: a sequence cut in two, and the outcomes
of a command that writes two distinct slots. In each the command's word is read back by `Fields.ofWord_encode`. -/

namespace Sys2Proof.Machine

/-- The two slices at a cut make up the whole sequence (00_scope.md R8). -/
theorem slice_zero_append_slice_to_end (x : Bits) (n : Nat) : slice x 0 n ++ slice x n x.length = x := by
  rw [slice_zero, slice_to_end, List.take_append_drop]

/-- What TRUNC writes is, in both cases of R152, the bits below `n`. -/
theorem ite_slice_zero_eq_take (x : Bits) (n : Nat) : (if n < x.length then slice x 0 n else x) = x.take n := by
  split
  · exact slice_zero x n
  · next hn => exact (List.take_of_length_le (not_lt.mp hn)).symm

/-- After writes to two distinct existing slots each holds what was written to it. -/
theorem State.writeBuf_writeBuf_buf {s : State} {a b : SlotField} (x y : Bits) (ha : a.toNat < s.slots.length)
    (hb : b.toNat < s.slots.length) (hab : a ≠ b) :
    ((s.writeBuf a x).writeBuf b y).buf a = x ∧ ((s.writeBuf a x).writeBuf b y).buf b = y := by
  constructor
  · rw [State.writeBuf_buf_other _ b a y hab, State.writeBuf_buf_same s a x ha]
  · exact State.writeBuf_buf_same _ b y (by rwa [State.writeBuf_slots, List.length_set])

/-- Operands that fail check 6 of R78 make a command ill-formed. -/
theorem wellFormed_eq_false_of_sameSlot {n : Nat} {i : Instr} (h6 : i.slotsDistinct = false) : i.wellFormed n = false := by
  rw [Instr.wellFormed, h6, Bool.and_false]

/-- Two slot writes behind a guard `n > m`, for a command whose two slot fields must differ: they happen when the guard is off, the
guard raises its exception when it is on, and a field that names no slot or `a = b` raises IllegalCommand, cause 1. -/
theorem exec_writesTwoSlots_or_raises {i : Instr} {s : State} {eff : State → Except Exc State} {a b : SlotField} {n m : Nat}
    {x y : Bits} {e : Exc} (hexec : ∀ s, exec i s = command i s eff) (hf : s.fault = false) (hs : s.SlotsOk)
    (hi : i.slotFields = [a, b]) (h5 : i.paramLegal = true) (h6 : i.slotsDistinct = decide (a ≠ b))
    (he : eff s = if n > m then .error e else .ok ((s.writeBuf a x).writeBuf b y)) :
    (a.toNat < s.cfg.nbuf → b.toNat < s.cfg.nbuf → a ≠ b → n ≤ m →
      ∃ t, exec i s = .next t ∧ t.buf a = x ∧ t.buf b = y ∧ WriterFrame [a, b] s t) ∧
    (a.toNat < s.cfg.nbuf → b.toNat < s.cfg.nbuf → a ≠ b → m < n → FaultsAs e.code (encode i) s (exec i s)) ∧
    (s.cfg.nbuf ≤ a.toNat ∨ s.cfg.nbuf ≤ b.toNat ∨ a = b → FaultsAs 1 (encode i) s (exec i s)) := by
  have hw (ha : a.toNat < s.cfg.nbuf) (hb : b.toNat < s.cfg.nbuf) (hab : a ≠ b) : i.wellFormed s.cfg.nbuf = true :=
    wellFormed_of_slotsExist (by rw [hi]; exact List.forall_mem_cons.mpr ⟨ha, List.forall_mem_singleton.mpr hb⟩) h5
      (h6.trans (decide_eq_true hab))
  refine ⟨fun ha hb hab hle => ?_, fun ha hb hab hlt => ?_, fun hillegal => ?_⟩
  · obtain ⟨hbufA, hbufB⟩ := State.writeBuf_writeBuf_buf x y (ha.trans_eq hs.1.symm) (hb.trans_eq hs.1.symm) hab
    exact ⟨_, exec_eq_counted hexec hf (hw ha hb hab) (he.trans (if_neg hle.not_gt)), hbufA, hbufB,
      writerFrame_writeBuf_writeBuf s a b x y⟩
  · exact exec_faultsAs_of_error hexec hf (hw ha hb hab) e (he.trans (if_pos hlt))
  · rcases hillegal with ha | hb | hab
    · exact exec_faultsAs_of_noSuchSlot hf (hi ▸ List.mem_cons_self ..) ha
    · exact exec_faultsAs_of_noSuchSlot hf (hi ▸ List.mem_cons_of_mem _ (List.mem_singleton_self b)) hb
    · exact exec_faultsAs_of_illFormed hf
        (wellFormed_eq_false_of_sameSlot (h6.trans (decide_eq_false (not_not.mpr hab))))

/-- Settles O40: the capacity guard on the sum of the lengths stands before the two writes. -/
theorem appendMovesBitsOntoTheTail : Obligations.AppendMovesBitsOntoTheTail := by
  intro s a b hs hf
  obtain ⟨-, hslots, -⟩ := hs
  exact ⟨Fields.ofWord_encode _,
    exec_writesTwoSlots_or_raises (e := .capacityOverflow) (fun _ => rfl) hf hslots rfl rfl rfl rfl⟩

/-- Settles O41: the bounds guard stands before the two writes, whose slices make up what `a` held. -/
theorem splitCutsTheSlotInTwo : Obligations.SplitCutsTheSlotInTwo := by
  intro s a b n hs hf
  obtain ⟨-, hslots, -⟩ := hs
  obtain ⟨hwrites, hbounds, hillegal⟩ :=
    exec_writesTwoSlots_or_raises (i := .split a b n) (fun _ => rfl) hf hslots rfl rfl rfl rfl
  refine ⟨Fields.ofWord_encode _, fun ha hb hab hn => ?_, hbounds, hillegal⟩
  obtain ⟨t, ht, hbufA, hbufB, hframe⟩ := hwrites ha hb hab hn
  refine ⟨t, ht, ?_, ?_, hframe⟩
  · rw [State.len, hbufA, slice_zero, List.length_take_of_le hn]
  · rw [hbufA, hbufB]
    exact slice_zero_append_slice_to_end (s.buf a) n.toNat

/-- Settles O42: an unconditional write of the first `n` bits, or of all where there are fewer. -/
theorem truncShortensAndNeverLengthens : Obligations.TruncShortensAndNeverLengthens := by
  intro s a n hs hf
  obtain ⟨-, hslots, -⟩ := hs
  refine ⟨Fields.ofWord_encode _, fun ha => ?_, exec_faultsAs_of_noSuchSlot hf (List.mem_singleton_self a)⟩
  obtain ⟨t, ht, hbuf, hframe⟩ :=
    exec_writesSlot (i := .trunc a n) (fun _ => rfl) hf (wellFormed_of_slotExists rfl ha rfl rfl) hslots ha rfl
  have htake : t.buf a = (s.buf a).take n.toNat := hbuf.trans (ite_slice_zero_eq_take (s.buf a) n.toNat)
  have hlen : t.len a = min n.toNat (s.len a) := by rw [State.len, htake, List.length_take, State.len]
  refine ⟨t, ht, hlen, fun k hk => ?_, hframe⟩
  have hkn : 0 + k < n.toNat := by omega
  rw [htake, ← slice_zero, bitAt_slice _ _ _ _ hkn, Nat.zero_add]

/-- Settles O43: the capacity guard on the new length stands before the write of the longer sequence. -/
theorem growAppendsCopiesOfTheBit : Obligations.GrowAppendsCopiesOfTheBit := by
  intro s a n v hs hf
  obtain ⟨-, hslots, -⟩ := hs
  exact ⟨Fields.ofWord_encode _, exec_writesSlot_or_overflows (fun _ => rfl) hf hslots rfl rfl rfl rfl⟩

end Sys2Proof.Machine
end

section
/-! SUPPORT. The statements about the boolean-algebra unit (44_boolean_algebra.md), and for them: the elements of a lane-wise result,
a sequence and its storage words, and the outcomes of a lane-wise command and of a command that returns a truth value. -/

namespace Sys2Proof.Machine

/-! ## Lane-wise results -/

/-- Element `k` of a lane-wise result is `f` of the two elements `k`. -/
theorem bitAt_zipWith (f : Bool → Bool → Bool) {x y : Bits} (hl : x.length = y.length) {k : Nat} (hk : k < x.length) :
    bitAt (List.zipWith f x y) k = f (bitAt x k) (bitAt y k) := by
  simp [bitAt, List.getD_eq_getElem?_getD, hk, hl ▸ hk]

/-- When `f` keeps 0 the elements of a lane-wise result are `f` of the elements past the end too (10_state.md R23). -/
theorem bitAt_zipWith_of_zero {f : Bool → Bool → Bool} (hf : f false false = false) {x y : Bits} (hl : x.length = y.length)
    (k : Nat) : bitAt (List.zipWith f x y) k = f (bitAt x k) (bitAt y k) := by
  rcases lt_or_ge k x.length with hk | hk
  · exact bitAt_zipWith f hl hk
  · have hlen : (List.zipWith f x y).length ≤ k := by rw [List.length_zipWith]; omega
    rw [bitAt_of_le hk, bitAt_of_le (hl.symm.trans_le hk), hf, bitAt_of_le hlen]

/-- Two sequences of one length differ exactly when they differ in some element. -/
theorem ne_iff_exists_bitAt_ne {x y : Bits} (hl : x.length = y.length) :
    x ≠ y ↔ ∃ k, k < x.length ∧ bitAt x k ≠ bitAt y k := by
  refine ⟨fun h => ?_, ?_⟩
  · by_contra hno
    exact h (bits_ext hl fun k hk => by_contra fun hne => hno ⟨k, hk, hne⟩)
  · rintro ⟨k, -, hne⟩ rfl
    exact hne rfl

/-- When `f` changes its first argument exactly at `u` and `v`, a lane-wise result differs from the first operand exactly when some
lane holds `u` and `v`. -/
theorem zipWith_ne_left_iff {f : Bool → Bool → Bool} {u v : Bool} (hchange : ∀ p q, f p q ≠ p ↔ p = u ∧ q = v) {x y : Bits}
    (hl : x.length = y.length) :
    List.zipWith f x y ≠ x ↔ ∃ k, k < x.length ∧ bitAt x k = u ∧ bitAt y k = v := by
  have hlen : (List.zipWith f x y).length = x.length := by rw [List.length_zipWith]; omega
  rw [ne_iff_exists_bitAt_ne hlen, hlen]
  refine exists_congr fun k => and_congr_right fun hk => ?_
  rw [bitAt_zipWith f hl hk, hchange]

/-! ## Storage words -/

/-- Bit `o` of storage word `k` is element `32k + o` (10_state.md R22). -/
theorem getLsbD_storageWord (x : Bits) (k : Nat) {o : Nat} (ho : o < 32) :
    (storageWord x k).getLsbD o = bitAt x (32 * k + o) := by
  rw [storageWord, BitVec.getLsbD_ofFnLE, dif_pos ho]

/-- A word with the elements `32k` to `32k + 31` of a sequence for its bits is the sequence's storage word `k`. -/
theorem storageWord_eq_of_getLsbD {x : Bits} {k : Nat} {w : Word} (h : ∀ o, o < 32 → bitAt x (32 * k + o) = w.getLsbD o) :
    storageWord x k = w :=
  BitVec.eq_of_getLsbD_eq fun o ho => (getLsbD_storageWord x k ho).trans (h o ho)

/-- Two sequences of one length differ exactly when some occupied word of theirs does (R176). -/
theorem ne_iff_exists_storageWord_ne {x y : Bits} (hl : x.length = y.length) :
    x ≠ y ↔ ∃ k, k < ceilDiv x.length 32 ∧ storageWord x k ≠ storageWord y k := by
  refine ⟨fun h => ?_, ?_⟩
  · obtain ⟨i, hi, hne⟩ := (ne_iff_exists_bitAt_ne hl).mp h
    refine ⟨i / 32, by rw [ceilDiv]; omega, fun hword => hne ?_⟩
    have hbit := congrArg (fun w => w.getLsbD (i % 32)) hword
    have ho : i % 32 < 32 := Nat.mod_lt i (by decide)
    simpa only [getLsbD_storageWord _ _ ho, Nat.div_add_mod] using hbit
  · rintro ⟨k, -, hne⟩ rfl
    exact hne rfl

/-- A sequence consists of copies of `v` exactly when its occupied words are those of the copies. -/
theorem forall_mem_eq_iff_storageWord (x : Bits) (v : Bool) :
    (∀ p ∈ x, p = v) ↔ ∀ k, k < ceilDiv x.length 32 → storageWord x k = storageWord (List.replicate x.length v) k := by
  have hne := ne_iff_exists_storageWord_ne (x := x) (y := List.replicate x.length v) List.length_replicate.symm
  calc (∀ p ∈ x, p = v) ↔ x = List.replicate x.length v := by simp [List.eq_replicate_iff]
    _ ↔ _ := by rw [← not_iff_not, ← ne_eq, hne]; simp

/-- The storage words of zeros are 0. -/
theorem storageWord_replicate_false (n k : Nat) : storageWord (List.replicate n false) k = 0 :=
  storageWord_eq_of_getLsbD fun o _ => by rw [bitAt_replicate, Bool.and_false]; exact BitVec.getLsbD_zero.symm

/-- A storage word of ones that the sequence fills is all ones. -/
theorem storageWord_replicate_true_of_full {n k : Nat} (h : 32 * k + 32 ≤ n) :
    storageWord (List.replicate n true) k = 0xFFFFFFFF := by
  refine storageWord_eq_of_getLsbD fun o ho => ?_
  rw [bitAt_replicate, decide_eq_true (by omega : 32 * k + o < n), show (0xFFFFFFFF : Word) = BitVec.allOnes 32 from rfl,
    BitVec.getLsbD_allOnes, decide_eq_true ho]
  rfl

/-- The mask of the last word has the bits below `n mod 32`, or all 32 where that is 0 (R176). -/
theorem getLsbD_validMask (n : Nat) {o : Nat} (ho : o < 32) :
    (validMask n).getLsbD o = decide (n % 32 ≠ 0 → o < n % 32) := by
  unfold validMask
  split
  · next hn => simp [BitVec.getLsbD_ofNat, Nat.testBit_two_pow_sub_one, ho, hn, -BitVec.getLsbD_eq_getElem]
  · next hn =>
    rw [show (0xFFFFFFFF : Word) = BitVec.allOnes 32 from rfl, BitVec.getLsbD_allOnes]
    simp [ho, hn]

/-- The last occupied word of ones is the mask (R176). -/
theorem storageWord_replicate_true_last {n m : Nat} (h : ceilDiv n 32 = m + 1) :
    storageWord (List.replicate n true) m = validMask n := by
  rw [ceilDiv] at h
  refine storageWord_eq_of_getLsbD fun o ho => ?_
  rw [bitAt_replicate, getLsbD_validMask n ho, Bool.and_true, decide_eq_decide]
  omega

/-- NONE's word test holds exactly when every occupied word is 0. -/
theorem wordsNone_occupiedWords_iff (x : Bits) :
    wordsNone (occupiedWords x) = true ↔ ∀ k, k < ceilDiv x.length 32 → storageWord x k = 0 := by
  simp [wordsNone, occupiedWords]

/-- ALL's word test of a sequence that is not empty holds exactly when every occupied word but the last is all ones and the last
is the mask. -/
theorem wordsAll_occupiedWords_iff {x : Bits} {m : Nat} (h : ceilDiv x.length 32 = m + 1) :
    wordsAll x.length (occupiedWords x) = true ↔
      (∀ k, k < m → storageWord x k = 0xFFFFFFFF) ∧ storageWord x m = validMask x.length := by
  have hpos : x.length ≠ 0 := by rw [ceilDiv] at h; omega
  simp [wordsAll, occupiedWords, h, hpos, List.range_succ]

/-- The word test of NONE gives the lane-wise answer. -/
theorem wordsNone_occupiedWords (x : Bits) : wordsNone (occupiedWords x) = x.all fun p => !p := by
  rw [Bool.eq_iff_iff, wordsNone_occupiedWords_iff]
  calc (∀ k, k < ceilDiv x.length 32 → storageWord x k = 0) ↔ ∀ p ∈ x, p = false := by
        rw [forall_mem_eq_iff_storageWord]
        simp only [storageWord_replicate_false]
    _ ↔ _ := by simp

/-- The word test of ANY gives the lane-wise answer: it is the negation of NONE's. -/
theorem wordsAny_occupiedWords (x : Bits) : wordsAny (occupiedWords x) = x.any fun p => p := by
  calc wordsAny (occupiedWords x) = !wordsNone (occupiedWords x) := by rw [wordsNone, List.not_all_eq_any_not]; rfl
    _ = !x.all fun p => !p := by rw [wordsNone_occupiedWords]
    _ = x.any fun p => p := by simp [List.not_all_eq_any_not]

/-- The word test of ALL gives the lane-wise answer: it compares with the occupied words of ones. -/
theorem wordsAll_occupiedWords (x : Bits) : wordsAll x.length (occupiedWords x) = x.all fun p => p := by
  rcases hm : ceilDiv x.length 32 with _ | m
  · have hnil : x = [] := List.length_eq_zero_iff.mp (by rw [ceilDiv] at hm; omega)
    subst hnil; rfl
  · have hfull : ∀ k, k < m → storageWord (List.replicate x.length true) k = 0xFFFFFFFF := fun k hk =>
      storageWord_replicate_true_of_full (by rw [ceilDiv] at hm; omega)
    rw [Bool.eq_iff_iff, wordsAll_occupiedWords_iff hm]
    calc _ ↔ ∀ k, k < m + 1 → storageWord x k = storageWord (List.replicate x.length true) k := by
          rw [Nat.forall_lt_succ_right, storageWord_replicate_true_last hm]
          exact and_congr_left fun _ => forall₂_congr fun k hk => by rw [hfull k hk]
      _ ↔ ∀ p ∈ x, p = true := by rw [← hm, forall_mem_eq_iff_storageWord]
      _ ↔ _ := List.all_eq_true.symm

/-- Settles O27: lane by lane for the three words, by the differing lane for the changed test, and by comparison with the words of
ones and of zeros for the three tests. -/
theorem wordLevelMethodsAgreeWithLanes : Obligations.WordLevelMethodsAgreeWithLanes := by
  intro x y hl
  refine ⟨fun k => storageWord_eq_of_getLsbD fun o ho => ?_, fun k => storageWord_eq_of_getLsbD fun o ho => ?_,
    fun k => storageWord_eq_of_getLsbD fun o ho => ?_, ne_iff_exists_storageWord_ne hl, wordsAll_occupiedWords x,
    wordsNone_occupiedWords x, wordsAny_occupiedWords x⟩
  · rw [bitAt_zipWith_of_zero rfl hl, BitVec.getLsbD_or, getLsbD_storageWord x k ho, getLsbD_storageWord y k ho]
  · rw [bitAt_zipWith_of_zero rfl hl, BitVec.getLsbD_and, getLsbD_storageWord x k ho, getLsbD_storageWord y k ho]
  · rw [bitAt_zipWith_of_zero rfl hl, BitVec.getLsbD_and, BitVec.getLsbD_not, getLsbD_storageWord x k ho,
      getLsbD_storageWord y k ho, decide_eq_true ho, Bool.true_and]

/-! ## The commands -/

/-- A truth value is returned as 1 or 0 (10_state.md R26). -/
theorem Returns.one_or_zero {c : Bool} {t : State} (h : Returns c.toNat t) :
    (c = true → Returns 1 t) ∧ (c = false → Returns 0 t) :=
  ⟨by rintro rfl; exact h, by rintro rfl; exact h⟩

/-- A lane-wise command whose `f` changes a lane exactly at `u` and `v`: on equal lengths it writes the lane-wise result and says
whether a lane changed, on unequal lengths it raises LengthMismatch, cause 4, and a field that names no slot raises
IllegalCommand, cause 1 (R170 to R172). -/
theorem exec_laneWise {i : Instr} {s : State} {a b : SlotField} {f : Bool → Bool → Bool} {u v : Bool}
    (hexec : ∀ s, exec i s = command i s (laneWise f a b)) (hf : s.fault = false) (hs : s.SlotsOk)
    (hi : i.slotFields = [a, b]) (h5 : i.paramLegal = true) (h6 : i.slotsDistinct = true)
    (hchange : ∀ p q, f p q ≠ p ↔ p = u ∧ q = v) :
    (a.toNat < s.cfg.nbuf → b.toNat < s.cfg.nbuf → s.len a = s.len b →
      ∃ t, exec i s = .next t ∧ t.len a = s.len a ∧
        (∀ k, k < s.len a → bitAt (t.buf a) k = f (bitAt (s.buf a) k) (bitAt (s.buf b) k)) ∧
        ((∃ k, k < s.len a ∧ bitAt (s.buf a) k = u ∧ bitAt (s.buf b) k = v) → Returns 1 t) ∧
        ((¬ ∃ k, k < s.len a ∧ bitAt (s.buf a) k = u ∧ bitAt (s.buf b) k = v) → Returns 0 t) ∧
        CommandFrame [a] s t ∧ SameBmem s t ∧ IterAfterWriting [a] s t) ∧
    (a.toNat < s.cfg.nbuf → b.toNat < s.cfg.nbuf → s.len a ≠ s.len b → FaultsAs 4 (encode i) s (exec i s)) ∧
    (s.cfg.nbuf ≤ a.toNat ∨ s.cfg.nbuf ≤ b.toNat → FaultsAs 1 (encode i) s (exec i s)) := by
  have hw (ha : a.toNat < s.cfg.nbuf) (hb : b.toNat < s.cfg.nbuf) : i.wellFormed s.cfg.nbuf = true :=
    wellFormed_of_slotsExist (by rw [hi]; exact List.forall_mem_cons.mpr ⟨ha, List.forall_mem_singleton.mpr hb⟩) h5 h6
  refine ⟨fun ha hb hl => ?_, fun ha hb hl => ?_, fun hmissing => ?_⟩
  · obtain ⟨hnext, hbuf, hframe⟩ :=
      exec_writesSlot_withResult hexec hf (hw ha hb) hs ha (if_neg (not_ne_iff.mpr hl)) (.number _)
    obtain ⟨hone, hzero⟩ := (returns_withRes _ (bool_toNat_lt_two_pow_32 _)).one_or_zero
    have hlane := zipWith_ne_left_iff hchange (x := s.buf a) (y := s.buf b) hl
    refine ⟨_, hnext, ?_, fun k hk => ?_, fun h => hone (decide_eq_true (hlane.mpr h)),
      fun h => hzero (decide_eq_false (mt hlane.mp h)), hframe⟩
    · rw [State.len, hbuf, List.length_zipWith]
      exact min_eq_left hl.le
    · rw [hbuf, bitAt_zipWith f hl hk]
  · exact exec_faultsAs_of_error hexec hf (hw ha hb) .lengthMismatch (if_pos hl)
  · rcases hmissing with ha | hb
    · exact exec_faultsAs_of_noSuchSlot hf (hi ▸ List.mem_cons_self ..) ha
    · exact exec_faultsAs_of_noSuchSlot hf (hi ▸ List.mem_cons_of_mem _ (List.mem_singleton_self b)) hb

/-- Settles O44: OR changes a lane exactly from 0 under 1. -/
theorem unionOrsLaneByLane : Obligations.UnionOrsLaneByLane := by
  intro s a b hs hf
  obtain ⟨-, hslots, -⟩ := hs
  have hchange : ∀ p q : Bool, (p || q) ≠ p ↔ p = false ∧ q = true := by decide
  exact ⟨Fields.ofWord_encode _, exec_laneWise (fun _ => rfl) hf hslots rfl rfl rfl hchange⟩

/-- Settles O45: AND changes a lane exactly from 1 under 0. -/
theorem interAndsLaneByLane : Obligations.InterAndsLaneByLane := by
  intro s a b hs hf
  obtain ⟨-, hslots, -⟩ := hs
  have hchange : ∀ p q : Bool, (p && q) ≠ p ↔ p = true ∧ q = false := by decide
  exact ⟨Fields.ofWord_encode _, exec_laneWise (fun _ => rfl) hf hslots rfl rfl rfl hchange⟩

/-- Settles O46: AND-NOT changes a lane exactly from 1 under 1. -/
theorem diffAndNotsLaneByLane : Obligations.DiffAndNotsLaneByLane := by
  intro s a b hs hf
  obtain ⟨-, hslots, -⟩ := hs
  have hchange : ∀ p q : Bool, (p && !q) ≠ p ↔ p = true ∧ q = true := by decide
  exact ⟨Fields.ofWord_encode _, exec_laneWise (fun _ => rfl) hf hslots rfl rfl rfl hchange⟩

/-- A property of every bit of a sequence is one of every element below its length. -/
theorem forall_mem_iff_bitAt (x : Bits) (P : Bool → Prop) : (∀ p ∈ x, P p) ↔ ∀ k, k < x.length → P (bitAt x k) := by
  rw [List.forall_mem_iff_forall_getElem]
  exact forall₂_congr fun k hk => by rw [bitAt, List.getD_eq_getElem _ _ hk]

/-- A property of some bit of a sequence is one of some element below its length. -/
theorem exists_mem_iff_bitAt (x : Bits) (P : Bool → Prop) : (∃ p ∈ x, P p) ↔ ∃ k, k < x.length ∧ P (bitAt x k) := by
  rw [← not_iff_not]
  push Not
  exact forall_mem_iff_bitAt x (¬ P ·)

/-- A command whose effect is a truth value returns 1 where it is true and 0 where it is false, and leaves everything else. -/
theorem exec_returnsTruth {i : Instr} {s : State} {eff : State → Except Exc State} {c : Bool} {P Q : Prop}
    (hexec : ∀ s, exec i s = command i s eff) (hf : s.fault = false) (hw : i.wellFormed s.cfg.nbuf = true)
    (he : eff s = .ok (s.withResBit c)) (hP : P → c = true) (hQ : Q → c = false) :
    ∃ t, exec i s = .next t ∧ ReaderFrame s t ∧ (P → Returns 1 t) ∧ (Q → Returns 0 t) := by
  obtain ⟨t, ht, hreturns, hframe⟩ := exec_returns hexec hf hw (bool_toNat_lt_two_pow_32 c) he
  obtain ⟨hone, hzero⟩ := hreturns.one_or_zero
  exact ⟨t, ht, hframe, fun h => hone (hP h), fun h => hzero (hQ h)⟩

/-- Settles O47: each command returns its test of the slot's bits, which are the elements below its length. -/
theorem reductionsTestTheBits : Obligations.ReductionsTestTheBits := by
  intro s a _ hf
  have hevery (v : Bool) : (∀ k, k < s.len a → bitAt (s.buf a) k = v) → ∀ p ∈ s.buf a, p = v :=
    (forall_mem_iff_bitAt (s.buf a) (· = v)).mpr
  have hsome (v : Bool) : (∃ k, k < s.len a ∧ bitAt (s.buf a) k = v) → ∃ p ∈ s.buf a, p = v :=
    (exists_mem_iff_bitAt (s.buf a) (· = v)).mpr
  refine ⟨Fields.ofWord_encode _, Fields.ofWord_encode _, Fields.ofWord_encode _, fun ha => ⟨?_, ?_, ?_⟩, fun ha => ⟨?_, ?_, ?_⟩⟩
  · exact exec_returnsTruth (fun _ => rfl) hf (wellFormed_of_slotExists rfl ha rfl rfl) rfl
      (fun h => by simpa using hevery true h) (fun h => by simpa using hsome false h)
  · exact exec_returnsTruth (fun _ => rfl) hf (wellFormed_of_slotExists rfl ha rfl rfl) rfl
      (fun h => by simpa using hevery false h) (fun h => by simpa using hsome true h)
  · exact exec_returnsTruth (fun _ => rfl) hf (wellFormed_of_slotExists rfl ha rfl rfl) rfl
      (fun h => by simpa using hsome true h) (fun h => by simpa using hevery false h)
  all_goals exact exec_faultsAs_of_noSuchSlot hf (List.mem_singleton_self a) ha

end Sys2Proof.Machine
end

section
/-! SUPPORT. The statements about iteration (45_iteration.md), and for them: what a completed command does to the iterator, and the
outcomes of a command that sets it. In each the command's word is read back by `Fields.ofWord_encode`. -/

namespace Sys2Proof.Machine

/-! ## Invalidation -/

/-- No iteration command lists a written slot. -/
theorem isIterCommand_eq_false_of_mem_slotsWritten {i : Instr} {c : SlotField} (h : c ∈ slotsWritten i) :
    isIterCommand i = false := by
  cases i with
  | iter | inext | iprev => nomatch h
  | _ => rfl

/-- Writing the result leaves the iterator. -/
theorem ResultUpdate.iter_eq {v u : State} {wr : Bool} (h : ResultUpdate v wr u) : u.iter = v.iter := by
  cases h <;> rfl

/-- A command that writes no slot invalidates no iterator. -/
theorem iterAfterWriting_nil {s t : State} (h : t.iter = s.iter) : IterAfterWriting [] s t :=
  ⟨fun ⟨_, hmem⟩ => absurd hmem List.not_mem_nil, fun _ => h⟩

/-- Outside the iteration commands the iterator changes only by invalidation (R193). -/
theorem Update.iterAfterWriting {i : Instr} {s v : State} (h : Update i s v) (hi : isIterCommand i = false) :
    IterAfterWriting (slotsWritten i) s v := by
  cases h with
  | keep hw => rw [hw]; exact iterAfterWriting_nil rfl
  | store a vs htob => rw [htob]; exact iterAfterWriting_nil rfl
  | setIter it hiter => exact absurd hiter (ne_true_of_eq_false hi)
  | writeOne a x hw => rw [hw]; exact iterAfterWriting_of_writeBuf a x rfl
  | writeTwo a b x y hw =>
    obtain ⟨-, -, -, hiter⟩ := writerFrame_writeBuf_writeBuf s a b x y
    rw [hw]; exact hiter

theorem Completion.iterAfterWriting {i : Instr} {s u : State} (h : Completion i s u) (hi : isIterCommand i = false) :
    IterAfterWriting (slotsWritten i) s u.counted := by
  obtain ⟨v, hv, hu⟩ := h
  rw [IterAfterWriting, State.counted_iter, hu.iter_eq]
  exact hv.iterAfterWriting hi

/-! ## Setting the iterator -/

/-- While the cursors have not met, the front one is below the back one, which is within the bound slot (10_state.md R33). -/
theorem State.IterOk.cursors_apart {s : State} (h : s.IterOk) (hv : s.iter.itv = true) (hne : s.iter.itf ≠ s.iter.itb) :
    s.iter.itf.toNat < s.iter.itb.toNat ∧ s.iter.itb.toNat ≤ s.len s.iter.itslot := by
  obtain ⟨-, hle, hlen⟩ := h.1 hv
  exact ⟨lt_of_le_of_ne hle fun he => hne (BitVec.eq_of_toNat_eq he), hlen⟩

/-- A command whose effect sets the iterator, and perhaps a result, leaves every slot and everything else in the frame of R25. -/
theorem exec_setsIter {i : Instr} {s u : State} {eff : State → Except Exc State} {it : Iter} {wr : Bool}
    (hexec : ∀ s, exec i s = command i s eff) (hf : s.fault = false) (hw : i.wellFormed s.cfg.nbuf = true)
    (he : eff s = .ok u) (hu : ResultUpdate { s with iter := it } wr u) :
    exec i s = .next u.counted ∧ u.counted.iter = it ∧ CommandFrame [] s u.counted ∧ SameBmem s u.counted := by
  refine ⟨exec_eq_counted hexec hf hw he, hu.iter_eq, hu.commandFrame ?_, ?_⟩
  · exact commandFrame_counted rfl (fun _ _ => rfl) rfl rfl rfl rfl rfl rfl rfl rfl rfl
  · cases hu <;> exact sameBmem_of_eq rfl rfl

/-- A traversal step: it yields a bit and moves a cursor while the cursors are apart, reports no element once they have met, and
raises IllegalCommand, cause 1, with no valid iterator (R191, R192). -/
theorem exec_stepsIter {i : Instr} {s : State} {eff : State → Except Exc State} {it : Iter} {v : Bool}
    (hexec : ∀ s, exec i s = command i s eff) (hf : s.fault = false) (hw : i.wellFormed s.cfg.nbuf = true)
    (he : eff s = if s.iter.itv = false then .error .illegalCommand
      else if s.iter.itf = s.iter.itb then .ok s.withNoElement
      else .ok { s.withResBit v with iter := it }) :
    (s.iter.itv = true → s.iter.itf ≠ s.iter.itb →
      ∃ t, exec i s = .next t ∧ t.iter = it ∧ Returns v.toNat t ∧ CommandFrame [] s t ∧ SameBmem s t) ∧
    (s.iter.itv = true → s.iter.itf = s.iter.itb → ∃ t, exec i s = .next t ∧ ReturnsNoElement t ∧ ReaderFrame s t) ∧
    (s.iter.itv = false → FaultsAs 1 (encode i) s (exec i s)) := by
  refine ⟨fun hv hne => ?_, fun hv hmet => ?_, fun hv => ?_⟩
  · rw [if_neg (ne_false_of_eq_true hv), if_neg hne] at he
    obtain ⟨hnext, hiter, hframe⟩ := exec_setsIter hexec hf hw he (.number v.toNat)
    exact ⟨_, hnext, hiter, returns_withRes { s with iter := it } (bool_toNat_lt_two_pow_32 v), hframe⟩
  · rw [if_neg (ne_false_of_eq_true hv), if_pos hmet] at he
    exact ⟨_, exec_eq_counted hexec hf hw he, ⟨rfl, rfl⟩, readerFrame_withNoElement s⟩
  · exact exec_faultsAs_of_error hexec hf hw .illegalCommand (he.trans (if_pos hv))

/-! ## The statements -/

/-- Settles O18: fault entry leaves the iterator, and a completion invalidates it as its listed slots say; INEXT and IPREV find the
unbound iterator's ITV clear. -/
theorem writingTheBoundSlotUnbindsTheIterator : Obligations.WritingTheBoundSlotUnbindsTheIterator := by
  intro i s t hf h
  obtain ⟨hf', -⟩ | ⟨-, x, rfl⟩ | ⟨-, u, hu, rfl⟩ := exec_cases h
  · exact absurd hf' (ne_true_of_eq_false hf)
  · exact ⟨nofun, nofun, fun _ => rfl⟩
  · have hlive : u.counted.fault = false := hu.fault_eq.trans hf
    refine ⟨fun _ hv hmem => ?_, fun _ hi hother => ?_, fun hfault => absurd hfault (ne_true_of_eq_false hlive)⟩
    · obtain ⟨hunbind, -⟩ := hu.iterAfterWriting (isIterCommand_eq_false_of_mem_slotsWritten hmem)
      have hiter := hunbind ⟨hv, hmem⟩
      have hinvalid : u.counted.iter.itv = false := by rw [hiter]
      obtain ⟨-, -, hinext⟩ := exec_stepsIter (i := .inext) (s := u.counted) (fun _ => rfl) hlive rfl rfl
      obtain ⟨-, -, hiprev⟩ := exec_stepsIter (i := .iprev) (s := u.counted) (fun _ => rfl) hlive rfl rfl
      exact ⟨hiter, hinext hinvalid, hiprev hinvalid⟩
    · obtain ⟨-, hkeep⟩ := hu.iterAfterWriting hi
      exact hkeep hother

/-- Settles O49: the front cursor is below the back one, so it is inside the slot and one more does not wrap. -/
theorem inextYieldsTheFrontBit : Obligations.InextYieldsTheFrontBit := by
  intro s hs hf
  obtain ⟨-, -, hiterOk, -⟩ := hs
  obtain ⟨hyields, hmet, hunbound⟩ := exec_stepsIter (i := .inext) (s := s) (fun _ => rfl) hf rfl rfl
  refine ⟨Fields.ofWord_encode _, fun hv hne => ?_, hmet, hunbound⟩
  obtain ⟨hlt, hlen⟩ := hiterOk.cursors_apart hv hne
  obtain ⟨t, ht, hiter, hreturns, hframe⟩ := hyields hv hne
  have hmoved : (s.iter.itf + 1).toNat = s.iter.itf.toNat + 1 := by bv_omega
  refine ⟨t, ht, hlt.trans_le hlen, hreturns, ?_⟩
  rw [hiter]
  exact ⟨hmoved, rfl, hv, rfl, hframe⟩

/-- Settles O50: the back cursor is above the front one, so one less does not wrap and is inside the slot. -/
theorem iprevYieldsTheBackBit : Obligations.IprevYieldsTheBackBit := by
  intro s hs hf
  obtain ⟨-, -, hiterOk, -⟩ := hs
  obtain ⟨hyields, hmet, hunbound⟩ := exec_stepsIter (i := .iprev) (s := s) (fun _ => rfl) hf rfl rfl
  refine ⟨Fields.ofWord_encode _, fun hv hne => ?_, hmet, hunbound⟩
  obtain ⟨hlt, hlen⟩ := hiterOk.cursors_apart hv hne
  obtain ⟨t, ht, hiter, hreturns, hframe⟩ := hyields hv hne
  have hmoved : (s.iter.itb - 1).toNat + 1 = s.iter.itb.toNat := by bv_omega
  refine ⟨t, ht, ?_⟩
  rw [hiter]
  exact ⟨hmoved, hmoved.trans_le hlen, hreturns, rfl, hv, rfl, hframe⟩

/-- Settles O48: the length is below 2^32, so ITB holds it whole. -/
theorem iterBindsTheIterator : Obligations.IterBindsTheIterator := by
  intro s a hs hf
  refine ⟨Fields.ofWord_encode _, fun ha => ?_, exec_faultsAs_of_noSuchSlot hf (List.mem_singleton_self a)⟩
  obtain ⟨hnext, hiter, hframe, hmem⟩ :=
    exec_setsIter (i := .iter a) (fun _ => rfl) hf (wellFormed_of_slotExists rfl ha rfl rfl) rfl .keep
  refine ⟨_, hnext, ?_⟩
  rw [hiter]
  exact ⟨rfl, rfl, rfl, Nat.mod_eq_of_lt (hs.len_lt a), hframe, ⟨rfl, rfl⟩, hmem⟩

end Sys2Proof.Machine
end

section
/-! SUPPORT. One codeword block of the Hamming codec (46_hamming.md R201 to R203): a check as an XOR over positions, what storing
the checks does to each position and each check, the syndrome of a codeword with a flipped bit, and the statements about a block. -/

namespace Sys2Proof.Machine

/-! ## A check as an XOR over positions -/

/-- A block is the list of the bits at its positions `1..L` (R203). -/
theorem map_bitAt_positions (c : Bits) : (List.range' 1 c.length).map (fun j => bitAt c (j - 1)) = c := by
  rw [List.range'_eq_map_range, List.map_map]
  simpa [Function.comp_def] using map_bitAt_range c

/-- The check of mask `2^n` looks at exactly the positions with bit `n` set (R203). -/
theorem covers_two_pow (n j : Nat) : (decide (2 ^ n ≤ j) && decide (j &&& 2 ^ n ≠ 0)) = j.testBit n := by
  rw [Nat.and_two_pow]
  rcases hj : j.testBit n with _ | _
  · simp
  · simp [Nat.ge_two_pow_of_testBit hj]

/-- A check is a running XOR: over the positions `P` picks, of the bits `h` gives, when `P` and `h` together say at each position
what the mask and the bit there say together. -/
theorem xor_maskedXor_map {m : Nat} {f P h : Nat → Bool}
    (hP : ∀ j, (decide (m ≤ j) && decide (j &&& m ≠ 0) && f j) = (P j && h j)) (n j : Nat) (acc : Bool) :
    Bool.xor acc (maskedXor m j ((List.range' j n).map f)) =
      ((List.range' j n).filter P).foldl (fun acc j => Bool.xor acc (h j)) acc := by
  induction n generalizing j acc with
  | zero => exact Bool.xor_false acc
  | succ n ih =>
    rw [List.range'_succ, List.map_cons, maskedXor, hP, List.filter_cons]
    rcases P j with _ | _
    · simpa using ih (j + 1) acc
    · simpa [Bool.xor_assoc] using ih (j + 1) (Bool.xor acc (h j))

theorem checkBit_eq_foldl {m : Nat} {c : Bits} {P h : Nat → Bool}
    (hP : ∀ j, (decide (m ≤ j) && decide (j &&& m ≠ 0) && bitAt c (j - 1)) = (P j && h j)) :
    checkBit m c = ((List.range' 1 c.length).filter P).foldl (fun acc j => Bool.xor acc (h j)) false := by
  rw [← xor_maskedXor_map hP, map_bitAt_positions, Bool.false_xor, checkBit]

/-- The check of a mask above every position is 0. -/
theorem maskedXor_of_le {m j : Nat} {c : Bits} (h : j + c.length ≤ m) : maskedXor m j c = false := by
  induction c generalizing j with
  | nil => rfl
  | cons b c ih =>
    rw [List.length_cons] at h
    rw [maskedXor, ih (by omega), decide_eq_false (by omega : ¬ m ≤ j)]
    rfl

/-- Every bit of the syndrome of a block of at most `L` bits is the check of its mask (R203). -/
theorem check_testBit_eq_checkBit {p : Nat} {c : Bits} (hc : c.length < 2 ^ p) (n : Nat) :
    (check p c).testBit n = checkBit (2 ^ n) c := by
  rw [check_testBit]
  by_cases hn : n < p
  · rw [decide_eq_true hn, Bool.true_and]
  · have hpow : 2 ^ p ≤ 2 ^ n := Nat.pow_le_pow_right (by decide) (by omega)
    rw [decide_eq_false hn, checkBit, maskedXor_of_le (by omega)]
    rfl

/-- Bit `n` of an XOR of numbers is the XOR of their bits `n`. -/
theorem testBit_foldl_xor (n : Nat) (l : List Nat) (S : Nat) :
    (l.foldl (fun S j => S ^^^ j) S).testBit n = l.foldl (fun acc j => Bool.xor acc (j.testBit n)) (S.testBit n) := by
  induction l generalizing S with
  | nil => rfl
  | cons j l ih => rw [List.foldl_cons, ih, Nat.testBit_xor, List.foldl_cons]

/-- The syndrome of a block is the XOR of the positions of its set bits (R203 consequence (c)). -/
theorem check_eq_foldl_xor {p : Nat} {c : Bits} (hc : c.length < 2 ^ p) :
    check p c = ((List.range' 1 c.length).filter fun j => bitAt c (j - 1)).foldl (fun S j => S ^^^ j) 0 := by
  refine Nat.eq_of_testBit_eq fun n => ?_
  have hP (j : Nat) : (decide (2 ^ n ≤ j) && decide (j &&& 2 ^ n ≠ 0) && bitAt c (j - 1)) = (bitAt c (j - 1) && j.testBit n) := by
    rw [covers_two_pow, Bool.and_comm]
  rw [check_testBit_eq_checkBit hc, checkBit_eq_foldl hP, testBit_foldl_xor, Nat.zero_testBit]

/-- Flipping the bit at position `e` changes the syndrome by `e` (R203 consequence (c)). -/
theorem check_flip {p e : Nat} {c : Bits} (hc : c.length < 2 ^ p) (he : 1 ≤ e) (he' : e ≤ c.length) :
    check p (c.set (e - 1) (!bitAt c (e - 1))) = check p c ^^^ e := by
  refine Nat.eq_of_testBit_eq fun n => ?_
  have hlen : (c.set (e - 1) (!bitAt c (e - 1))).length < 2 ^ p := by rwa [List.length_set]
  rw [check_testBit_eq_checkBit hlen, checkBit_set _ _ _ _ (by omega), Nat.sub_add_cancel he, covers_two_pow, Nat.testBit_xor,
    check_testBit_eq_checkBit hc, Bool.xor_not_self, Bool.and_true]

/-! ## Arranging and assembling -/

/-- Arranging leaves 0 at the parity positions (R203). -/
theorem bitAt_arrangeFrom {n j k : Nat} {g : Bits} (h : isParity (j + k) = true) : bitAt (arrangeFrom n j g) k = false := by
  induction n generalizing j k g with
  | zero => rfl
  | succ n ih =>
    cases k with
    | zero => rw [arrangeFrom, if_pos (show isParity j = true from h)]; rfl
    | succ k =>
      have h' : isParity (j + 1 + k) = true := by rwa [Nat.add_right_comm]
      rw [arrangeFrom]
      split
      · exact ih h'
      · exact ih h'

/-- The parity position `2^n` is 0 after arranging. -/
theorem bitAt_arrange_two_pow (p n : Nat) (g : Bits) : bitAt (arrange p g) (2 ^ n - 1) = false := by
  refine bitAt_arrangeFrom ?_
  rw [Nat.add_sub_cancel' Nat.one_le_two_pow, isParity_two_pow]

/-- Assembling an arranged group of the right length gives it back (R203). -/
theorem assembleFrom_arrangeFrom {n j : Nat} {g : Bits}
    (hg : g.length = ((List.range' j n).filter fun i => !isParity i).length) : assembleFrom j (arrangeFrom n j g) = g := by
  induction n generalizing j g with
  | zero => exact (List.length_eq_zero_iff.mp hg).symm
  | succ n ih =>
    rw [List.range'_succ, List.filter_cons] at hg
    rcases hj : isParity j with _ | _
    · obtain ⟨b, g, rfl⟩ := List.exists_cons_of_ne_nil (l := g) (by rintro rfl; simp [hj] at hg)
      simp only [arrangeFrom, assembleFrom, hj, Bool.false_eq_true, if_false, List.tail_cons]
      rw [ih (by simpa [hj] using hg)]
      rfl
    · simp only [arrangeFrom, assembleFrom, hj, if_true]
      exact ih (by simpa [hj] using hg)

theorem assemble_arrange {p : Nat} {g : Bits} (hg : g.length = groupLen p) : assemble (arrange p g) = g :=
  assembleFrom_arrangeFrom (hg.trans (dataPositions_length p).symm)

theorem assembleFrom_map (f : Nat → Bool) (n j : Nat) :
    assembleFrom j ((List.range' j n).map f) = ((List.range' j n).filter fun i => !isParity i).map f := by
  induction n generalizing j with
  | zero => rfl
  | succ n ih =>
    rw [List.range'_succ, List.map_cons, assembleFrom, ih, List.filter_cons]
    rcases isParity j with _ | _ <;> rfl

/-- Assembling reads the bits at the data positions in order (R202, R203). -/
theorem assemble_eq_map {p : Nat} {c : Bits} (hc : c.length = blockLen p) :
    assemble c = (dataPositions p).map fun j => bitAt c (j - 1) := by
  rw [dataPositions, ← hc, ← assembleFrom_map, map_bitAt_positions, assemble]

/-! ## Storing the checks -/

theorem parity_succ (q : Nat) (c : Bits) :
    parity (q + 1) c = (parity q c).set (2 ^ q - 1) (checkBit (2 ^ q) (parity q c)) := by
  rw [parity, List.range_succ, List.foldl_append]
  rfl

/-- A write at the parity position `2^q` is seen by the check of mask `2^q` alone (R203). -/
theorem checkBit_set_two_pow (m : Nat) {q : Nat} {c : Bits} (hq : 2 ^ q ≤ c.length) (v : Bool) :
    checkBit (2 ^ m) (c.set (2 ^ q - 1) v) =
      Bool.xor (checkBit (2 ^ m) c) (decide (m = q) && Bool.xor (bitAt c (2 ^ q - 1)) v) := by
  have hpos : 1 ≤ 2 ^ q := Nat.one_le_two_pow
  rw [checkBit_set _ _ _ _ (by omega), Nat.sub_add_cancel hpos, covers_two_pow, Nat.testBit_two_pow, decide_eq_decide.mpr eq_comm]

/-- Storing the checks of the first `q` masks exchanges, at each of those masks, the check and the bit stored at it, and at no other
mask changes either (R203). -/
theorem parity_exchanges {q : Nat} {c : Bits} (hq : 2 ^ q - 1 ≤ c.length) (m : Nat) :
    checkBit (2 ^ m) (parity q c) = (if m < q then bitAt c (2 ^ m - 1) else checkBit (2 ^ m) c) ∧
    bitAt (parity q c) (2 ^ m - 1) = (if m < q then checkBit (2 ^ m) c else bitAt c (2 ^ m - 1)) := by
  induction q generalizing m with
  | zero => exact ⟨rfl, rfl⟩
  | succ q ih =>
    have hpos : 1 ≤ 2 ^ q := Nat.one_le_two_pow
    have hin : 2 ^ q ≤ (parity q c).length := by rw [Nat.pow_succ] at hq; rw [parity_length]; omega
    have hle : 2 ^ q - 1 ≤ c.length := by rw [parity_length] at hin; omega
    obtain ⟨hcheck, hbit⟩ := ih hle m
    rw [parity_succ, checkBit_set_two_pow m hin, bitAt_set (by omega)]
    rcases eq_or_ne m q with rfl | hne
    · rw [if_neg (lt_irrefl m)] at hcheck hbit
      simp [hcheck, hbit, Bool.xor_left_comm]
    · have hpow : 2 ^ m - 1 ≠ 2 ^ q - 1 := fun h =>
        hne (Nat.pow_right_injective (le_refl 2) (show 2 ^ m = 2 ^ q by have := Nat.one_le_two_pow (n := m); omega))
      have hlt : m < q + 1 ↔ m < q := by omega
      simp [hcheck, hbit, hne, hpow, hlt]

/-- Storing the checks leaves every data position (R203). -/
theorem bitAt_parity_of_data {q k : Nat} {c : Bits} (hq : 2 ^ q - 1 ≤ c.length) (hk : isParity (k + 1) = false) :
    bitAt (parity q c) k = bitAt c k := by
  induction q with
  | zero => rfl
  | succ q ih =>
    have hpos : 1 ≤ 2 ^ q := Nat.one_le_two_pow
    rw [Nat.pow_succ] at hq
    have hne : k ≠ 2 ^ q - 1 := by
      rintro rfl
      rw [Nat.sub_add_cancel hpos, isParity_two_pow] at hk
      exact absurd hk (by decide)
    rw [parity_succ, bitAt_set (by rw [parity_length]; omega), if_neg hne, ih (by omega)]

/-! ## Codewords -/

theorem blockLen_lt (p : Nat) : blockLen p < 2 ^ p := by
  have := Nat.one_le_two_pow (n := p)
  rw [blockLen]; omega

theorem encodeBlock_length_lt (p : Nat) (g : Bits) : (encodeBlock p g).length < 2 ^ p :=
  (encodeBlock_length p g).trans_lt (blockLen_lt p)

theorem two_pow_sub_one_le_arrange_length (p : Nat) (g : Bits) : 2 ^ p - 1 ≤ (arrange p g).length := (arrange_length p g).ge

/-- Every check of a codeword agrees (R203 consequence (a)). -/
theorem checkBit_encodeBlock {p n : Nat} (g : Bits) (hn : n < p) : checkBit (2 ^ n) (encodeBlock p g) = false := by
  obtain ⟨hcheck, -⟩ := parity_exchanges (two_pow_sub_one_le_arrange_length p g) n
  rw [encodeBlock, hcheck, if_pos hn, bitAt_arrange_two_pow]

/-- The bit of a codeword at parity position `2^n` is the check of the arranged group (R203). -/
theorem bitAt_encodeBlock_two_pow {p n : Nat} (g : Bits) (hn : n < p) :
    bitAt (encodeBlock p g) (2 ^ n - 1) = checkBit (2 ^ n) (arrange p g) := by
  obtain ⟨-, hbit⟩ := parity_exchanges (two_pow_sub_one_le_arrange_length p g) n
  rw [encodeBlock, hbit, if_pos hn]

/-- At a data position a codeword has the bit of the arranged group (R203). -/
theorem bitAt_encodeBlock_of_data {p k : Nat} (g : Bits) (hk : isParity (k + 1) = false) :
    bitAt (encodeBlock p g) k = bitAt (arrange p g) k :=
  bitAt_parity_of_data (two_pow_sub_one_le_arrange_length p g) hk

/-- The syndrome of a codeword is 0 (R203 consequence (c)). -/
theorem check_encodeBlock (p : Nat) (g : Bits) : check p (encodeBlock p g) = 0 := by
  refine Nat.eq_of_testBit_eq fun n => ?_
  rw [check_testBit, Nat.zero_testBit]
  by_cases hn : n < p
  · rw [checkBit_encodeBlock g hn, Bool.and_false]
  · rw [decide_eq_false hn, Bool.false_and]

/-- The syndrome of a codeword with its position `e` flipped is `e` (R203 consequence (c)). -/
theorem check_encodeBlock_flip {p e : Nat} (g : Bits) (he : 1 ≤ e) (he' : e ≤ blockLen p) :
    check p ((encodeBlock p g).set (e - 1) (!bitAt (encodeBlock p g) (e - 1))) = e := by
  rw [check_flip (encodeBlock_length_lt p g) he (by rwa [encodeBlock_length]), check_encodeBlock, Nat.zero_xor]

theorem isParity_of_mem_dataPositions {p j : Nat} (hj : j ∈ dataPositions p) : 1 ≤ j ∧ isParity j = false := by
  rw [dataPositions, List.mem_filter, List.mem_range'_1, Bool.not_eq_true'] at hj
  exact ⟨hj.1.1, hj.2⟩

/-- Assembling a codeword gives back its data group (R203). -/
theorem assemble_encodeBlock {p : Nat} {g : Bits} (hg : g.length = groupLen p) : assemble (encodeBlock p g) = g := by
  calc assemble (encodeBlock p g)
      = (dataPositions p).map fun j => bitAt (encodeBlock p g) (j - 1) := assemble_eq_map (encodeBlock_length p g)
    _ = (dataPositions p).map fun j => bitAt (arrange p g) (j - 1) := List.map_congr_left fun j hj => by
        obtain ⟨hpos, hdata⟩ := isParity_of_mem_dataPositions hj
        exact bitAt_encodeBlock_of_data g (by rwa [Nat.sub_add_cancel hpos])
    _ = assemble (arrange p g) := (assemble_eq_map (arrange_length p g)).symm
    _ = g := assemble_arrange hg

/-- The check of an arranged group is the XOR of its codeword's bits at the data positions the mask looks at (R203
consequence (a)). -/
theorem checkBit_arrange (p n : Nat) (g : Bits) :
    checkBit (2 ^ n) (arrange p g) = ((dataPositions p).filter fun j => decide (j &&& 2 ^ n ≠ 0)).foldl
      (fun acc j => Bool.xor acc (bitAt (encodeBlock p g) (j - 1))) false := by
  have hP (j : Nat) : (decide (2 ^ n ≤ j) && decide (j &&& 2 ^ n ≠ 0) && bitAt (arrange p g) (j - 1)) =
      ((decide (j &&& 2 ^ n ≠ 0) && !isParity j) && bitAt (encodeBlock p g) (j - 1)) := by
    cases j with
    | zero => simp
    | succ k =>
      rcases hk : isParity (k + 1) with _ | _
      · rw [Nat.add_sub_cancel, bitAt_encodeBlock_of_data g hk, covers_two_pow, Nat.and_two_pow]
        cases (k + 1).testBit n <;> simp
      · have hzero : bitAt (arrange p g) k = false := bitAt_arrangeFrom (by rwa [Nat.add_comm])
        simp [hzero]
  rw [checkBit_eq_foldl hP, arrange_length, dataPositions, List.filter_filter]

/-- Settles O54: the data by assembling the codeword, the parity by what storing the checks leaves at their positions. -/
theorem encodedBlockHoldsDataAndParity : Obligations.EncodedBlockHoldsDataAndParity := by
  intro p g _ hg
  refine ⟨encodeBlock_length p g, dataPositions_length p, fun t ht => ?_, fun n hn => ?_⟩
  · have hmap := (assemble_eq_map (encodeBlock_length p g)).symm.trans (assemble_encodeBlock hg)
    have ht' : t < (dataPositions p).length := by rwa [dataPositions_length]
    conv_rhs => rw [← hmap, bitAt, List.getD_eq_getElem _ _ (by simpa using ht'), List.getElem_map]
    rw [List.getD_eq_getElem _ _ ht']
  · rw [bitAt_encodeBlock_two_pow g hn, checkBit_arrange]

/-- Settles O55: each bit of the syndrome is a check, and a check is an XOR over the set positions. -/
theorem syndromeIsTheXorOfSetPositions : Obligations.SyndromeIsTheXorOfSetPositions := by
  intro p _
  refine ⟨fun c hc => ⟨check_lt p c, ?_⟩, fun g _ => check_encodeBlock p g, fun g e _ => check_encodeBlock_flip g⟩
  rw [← hc]
  exact check_eq_foldl_xor (hc.trans_lt (blockLen_lt p))

/-- Decoding a codeword gives its data group back. -/
theorem decodeBlock_encodeBlock {p : Nat} {g : Bits} (hg : g.length = groupLen p) : decodeBlock p (encodeBlock p g) = g := by
  rw [decodeBlock, check_encodeBlock, correct, if_pos rfl, assemble_encodeBlock hg]

/-- Flipping a bit twice gives the sequence back. -/
theorem set_set_flip {c : Bits} {k : Nat} (hk : k < c.length) :
    (c.set k (!bitAt c k)).set k (!bitAt (c.set k (!bitAt c k)) k) = c := by
  rw [bitAt_set hk, if_pos rfl, Bool.not_not, List.set_set, bitAt, List.getD_eq_getElem _ _ hk, List.set_getElem_self]

/-- Settles O56: the syndrome is the flipped position, so correcting it flips it back. -/
theorem singleBitFlipIsCorrected : Obligations.SingleBitFlipIsCorrected := by
  intro p g _ hg
  refine ⟨decodeBlock_encodeBlock hg, fun e he he' => ?_⟩
  have hin : e - 1 < (encodeBlock p g).length := by rw [encodeBlock_length]; omega
  rw [decodeBlock, check_encodeBlock_flip g he he', correct, if_neg (by omega), set_set_flip hin, assemble_encodeBlock hg]

/-- Settles O59: the smallest code has two groups and eight blocks. -/
theorem smallestCodeTriplesAndVotes : Obligations.SmallestCodeTriplesAndVotes :=
  ⟨rfl, rfl, rfl, by decide⟩

end Sys2Proof.Machine
end

section
/-! SUPPORT. The Hamming codec on whole sequences and slots (46_hamming.md R204 to R209): the groups of an encoded sequence and
the blocks of a decoded one, the round trips on bits and on bytes, and the statements about HENC, HDEC and HSYN. In each of these
the command's word is read back by `Fields.ofWord_encode`. -/

namespace Sys2Proof.Machine

/-! ## Groups and blocks -/

theorem blockLen_pos {p : Nat} (hp : 2 ≤ p) : 0 < blockLen p :=
  Nat.sub_pos_of_lt (Nat.one_lt_two_pow (by omega))

theorem groupLen_pos {p : Nat} (hp : 2 ≤ p) : 0 < groupLen p := by
  obtain ⟨q, rfl⟩ := Nat.exists_eq_add_of_le' hp
  have hq : q < 2 ^ q := Nat.lt_two_pow_self
  rw [groupLen, Nat.pow_add]; omega

/-- Whole groups have room for the sequence (00_scope.md R7). -/
theorem le_ceilDiv_mul (n : Nat) {k : Nat} (hk : 0 < k) : n ≤ ceilDiv n k * k := by
  rw [ceilDiv, ← Nat.ceilDiv_eq_add_pred_div, Nat.mul_comm]
  exact le_smul_ceilDiv hk

/-- A slice inside a sequence is the list of its elements (00_scope.md R8). -/
theorem slice_eq_map_bitAt {x : Bits} {a n : Nat} (h : a + n ≤ x.length) :
    slice x a (a + n) = (List.range n).map fun k => bitAt x (a + k) := by
  have hlen : (slice x a (a + n)).length = n := by rw [slice_length]; omega
  rw [← map_bitAt_range (slice x a (a + n)), hlen]
  exact List.map_congr_left fun k hk => bitAt_slice _ _ _ _ (by rw [List.mem_range] at hk; omega)

/-- Zero padding reads as the sequence does past its end (R23). -/
theorem bitAt_append_replicate_false (x : Bits) (n i : Nat) : bitAt (x ++ List.replicate n false) i = bitAt x i := by
  rw [bitAt_append, bitAt_replicate, Bool.and_false]
  exact (bitAt_eq_ite x i).symm

theorem chunks_getElem {n k : Nat} {x : Bits} {g : Nat} (h : g < (chunks n k x).length) :
    (chunks n k x)[g] = slice x (g * k) (g * k + k) := by
  have hg := chunks_getElem? n k x g (by rwa [chunks_length] at h)
  rwa [List.getElem?_eq_getElem h, Option.some_inj] at hg

/-- Every chunk of a sequence that has room for all of them is a whole one. -/
theorem length_of_mem_chunks {n k : Nat} {x c : Bits} (h : n * k ≤ x.length) (hc : c ∈ chunks n k x) : c.length = k := by
  obtain ⟨g, hg, rfl⟩ := List.mem_iff_getElem.mp hc
  rw [chunks_length] at hg
  have hfit : (g + 1) * k ≤ x.length := (Nat.mul_le_mul_right k hg).trans h
  rw [Nat.succ_mul] at hfit
  rw [chunks_getElem, slice_length]; omega

/-- Cutting a concatenation of parts of one length gives the parts back, whatever stands after them. -/
theorem chunks_flatMap_append {α : Type} {f : α → Bits} {k : Nat} {xs : List α} (h : ∀ a ∈ xs, (f a).length = k) (z : Bits) :
    chunks xs.length k (xs.flatMap f ++ z) = xs.map f := by
  induction xs with
  | nil => rfl
  | cons a xs ih =>
    obtain ⟨ha, hxs⟩ := List.forall_mem_cons.mp h
    rw [List.length_cons, chunks, List.flatMap_cons, List.append_assoc, List.take_left' ha, List.drop_left' ha, ih hxs,
      List.map_cons]

/-- The sequence HENC encodes, padded with 0 to whole groups (R204). -/
def padToGroups (p : Nat) (x : Bits) : Bits := x ++ List.replicate (groupCount p x.length * groupLen p - x.length) false

theorem padToGroups_length {p : Nat} (hp : 2 ≤ p) (x : Bits) :
    (padToGroups p x).length = groupCount p x.length * groupLen p := by
  rw [padToGroups, List.length_append, List.length_replicate, Nat.add_sub_cancel']
  exact le_ceilDiv_mul x.length (groupLen_pos hp)

theorem hammingEncode_eq (p : Nat) (x : Bits) :
    hammingEncode p x = (chunks (groupCount p x.length) (groupLen p) (padToGroups p x)).flatMap (encodeBlock p) := rfl

/-- Block `g` of an encoded sequence is the encoding of group `g`, which reads 0 past the end of the sequence (R204). -/
theorem slice_hammingEncode {p g : Nat} {x : Bits} (hp : 2 ≤ p) (hg : g < groupCount p x.length) :
    slice (hammingEncode p x) (g * blockLen p) (g * blockLen p + blockLen p) =
      encodeBlock p ((List.range (groupLen p)).map fun k => bitAt x (g * groupLen p + k)) := by
  have hfit : (g + 1) * groupLen p ≤ (padToGroups p x).length := by
    rw [padToGroups_length hp]; exact Nat.mul_le_mul_right _ hg
  rw [Nat.succ_mul] at hfit
  rw [hammingEncode_eq, flatMap_slice _ _ _ (fun c _ => encodeBlock_length p c) g (by rwa [chunks_length]), chunks_getElem,
    slice_eq_map_bitAt hfit]
  simp only [padToGroups, bitAt_append_replicate_false]

/-- Group `g` of a decoded sequence is the decoding of block `g` (R206). -/
theorem slice_hammingDecode {p g : Nat} {y : Bits} (hg : g < y.length / blockLen p) :
    slice (hammingDecode p y) (g * groupLen p) (g * groupLen p + groupLen p) =
      decodeBlock p (slice y (g * blockLen p) (g * blockLen p + blockLen p)) := by
  have hwhole : ∀ c ∈ chunks (y.length / blockLen p) (blockLen p) y, (decodeBlock p c).length = groupLen p := fun c hc =>
    decodeBlock_length p c (length_of_mem_chunks (Nat.div_mul_le_self _ _) hc)
  rw [hammingDecode, flatMap_slice _ _ _ hwhole g (by rwa [chunks_length]), chunks_getElem]

/-! ## Round trips -/

/-- Decoding an encoded sequence, whatever part of a block stands after it, gives the padded sequence back (R206, R209). -/
theorem hammingDecode_hammingEncode_append {p : Nat} (hp : 2 ≤ p) (x : Bits) {z : Bits} (hz : z.length < blockLen p) :
    hammingDecode p (hammingEncode p x ++ z) = padToGroups p x := by
  have hlen := padToGroups_length hp x
  have hblocks : (hammingEncode p x ++ z).length / blockLen p =
      (chunks (groupCount p x.length) (groupLen p) (padToGroups p x)).length := by
    rw [List.length_append, hammingEncode_length, chunks_length, Nat.mul_comm, Nat.mul_add_div (by omega), Nat.div_eq_of_lt hz,
      Nat.add_zero]
  have hgroup : ∀ g ∈ chunks (groupCount p x.length) (groupLen p) (padToGroups p x), decodeBlock p (encodeBlock p g) = g :=
    fun g hg => decodeBlock_encodeBlock (length_of_mem_chunks hlen.ge hg)
  calc hammingDecode p (hammingEncode p x ++ z)
      = ((chunks (groupCount p x.length) (groupLen p) (padToGroups p x)).map (encodeBlock p)).flatMap (decodeBlock p) := by
        rw [hammingDecode, hblocks, hammingEncode_eq, chunks_flatMap_append fun g _ => encodeBlock_length p g]
    _ = (chunks (groupCount p x.length) (groupLen p) (padToGroups p x)).flatten := by
        rw [List.flatMap_map, List.flatMap_def, List.map_congr_left hgroup, List.map_id']
    _ = padToGroups p x := chunks_flatten _ _ _ hlen

/-- Settles O57: nothing stands after the blocks. -/
theorem hammingRoundTripPadsWithZeros : Obligations.HammingRoundTripPadsWithZeros := by
  intro p x hp
  have h := hammingDecode_hammingEncode_append hp x (z := []) (blockLen_pos hp)
  rwa [List.append_nil] at h

/-- Packing whole bytes and then more bits gives the bytes and then the packing of the rest (R52). -/
theorem bytesOfBits_bitsOfBytes_append (ys : List Byte) (x : Bits) :
    bytesOfBits (bitsOfBytes ys ++ x) = ys ++ bytesOfBits x := by
  induction ys with
  | nil => rfl
  | cons y ys ih =>
    have hbits : bitsOfBytes (y :: ys) ++ x = bitsOfByte y ++ (bitsOfBytes ys ++ x) := by
      rw [bitsOfBytes, List.flatMap_cons, List.append_assoc, bitsOfBytes]
    have hceil : ceilDiv (bitsOfByte y ++ (bitsOfBytes ys ++ x)).length 8 = ceilDiv (bitsOfBytes ys ++ x).length 8 + 1 := by
      rw [List.length_append, bitsOfByte_length, ceilDiv, ceilDiv]; omega
    rw [hbits, bytesOfBits, hceil, chunks, List.take_left' (bitsOfByte_length y), List.drop_left' (bitsOfByte_length y),
      List.map_cons, byteOfBits_bitsOfByte, ← bytesOfBits, ih, List.cons_append]

/-- Zero bits pack into zero bytes (R52). -/
theorem bytesOfBits_replicate_false (n : Nat) : bytesOfBits (List.replicate n false) = List.replicate (ceilDiv n 8) 0 := by
  have hlen : (bytesOfBits (List.replicate n false)).length = ceilDiv n 8 := by rw [bytesOfBits_length, List.length_replicate]
  refine List.eq_replicate_iff.mpr ⟨hlen, fun v hv => ?_⟩
  obtain ⟨q, hq, rfl⟩ := List.mem_iff_getElem.mp hv
  refine BitVec.eq_of_getLsbD_eq fun i hi => ?_
  have hbit := getLsbD_bytesOfBits (List.replicate n false) (q := q) (t := 7 - i) (by rwa [← bytesOfBits_length]) (by omega)
  rw [List.getD_eq_getElem _ _ hq, Nat.sub_sub_self (by omega), bitAt_replicate, Bool.and_false] at hbit
  exact hbit.trans BitVec.getLsbD_zero.symm

/-- The byte image of encoded bytes ends in less than a block of padding: none for `p = 2`, whose blocks fill whole bytes, an even
number of bits for `p = 3`, and at most 7 bits beside longer blocks (R208, R209). -/
theorem bytePadding_lt_blockLen {p : Nat} (hp : 2 ≤ p) (ys : List Byte) :
    (8 - (hammingEncode p (bitsOfBytes ys)).length % 8) % 8 < blockLen p := by
  rw [hammingEncode_length, bitsOfBytes_length]
  obtain rfl | rfl | hp4 : p = 2 ∨ p = 3 ∨ 4 ≤ p := by omega
  · rw [groupCount, show groupLen 2 = 1 from rfl, show blockLen 2 = 3 from rfl, ceilDiv]; omega
  · rw [groupCount, show groupLen 3 = 4 from rfl, show blockLen 3 = 7 from rfl, ceilDiv]; omega
  · have hpow : 2 ^ 4 ≤ 2 ^ p := Nat.pow_le_pow_right (by decide) hp4
    rw [blockLen]; omega

/-- Settles O58: the padding of the byte image is dropped with its part of a block, and the padding of the last group packs into
zero bytes. -/
theorem hammingByteRoundTripAddsOnlyZeroBytes : Obligations.HammingByteRoundTripAddsOnlyZeroBytes := by
  intro p ys hp
  have hfit : 8 * ys.length ≤ ceilDiv (8 * ys.length) (groupLen p) * groupLen p := le_ceilDiv_mul _ (groupLen_pos hp)
  refine ⟨?_, fun hsmall => ?_⟩
  · rw [bitsOfBytes_bytesOfBits, hammingDecode_hammingEncode_append hp _ (by
      rw [List.length_replicate]; exact bytePadding_lt_blockLen hp ys), padToGroups, bytesOfBits_bitsOfBytes_append,
      bytesOfBits_replicate_false, bitsOfBytes_length, groupCount]
    congr 2
    generalize ceilDiv (8 * ys.length) (groupLen p) * groupLen p = n at hfit ⊢
    rw [ceilDiv, ceilDiv]; omega
  · rcases hsmall with rfl | rfl
    · rw [show groupLen 2 = 1 from rfl, ceilDiv, ceilDiv]; omega
    · rw [show groupLen 3 = 4 from rfl, ceilDiv, ceilDiv]; omega

/-! ## The commands -/

/-- A Hamming parameter below 2 fails check 5 of R78. -/
theorem wellFormed_eq_false_of_paramIllegal {n : Nat} {i : Instr} (h5 : i.paramLegal = false) : i.wellFormed n = false := by
  rw [Instr.wellFormed, h5, Bool.and_false]
  rfl

/-- HENC and HDEC raise IllegalCommand, cause 1, for a slot field that names no slot and for a parameter below 2. -/
theorem exec_faultsAs_of_illegalCodecOperands {i : Instr} {s : State} {a b : SlotField} {p : ParamField} (hf : s.fault = false)
    (hi : i.slotFields = [a, b]) (h5 : i.paramLegal = decide (2 ≤ p.toNat))
    (h : s.cfg.nbuf ≤ a.toNat ∨ s.cfg.nbuf ≤ b.toNat ∨ p.toNat < 2) : FaultsAs 1 (encode i) s (exec i s) := by
  rcases h with ha | hb | hp
  · exact exec_faultsAs_of_noSuchSlot hf (hi ▸ List.mem_cons_self ..) ha
  · exact exec_faultsAs_of_noSuchSlot hf (hi ▸ List.mem_cons_of_mem _ (List.mem_singleton_self b)) hb
  · exact exec_faultsAs_of_illFormed hf (wellFormed_eq_false_of_paramIllegal (h5.trans (decide_eq_false hp.not_ge)))

/-- Settles O51: the capacity guard stands before the write of the encoded sequence, whose blocks `slice_hammingEncode` gives. -/
theorem hencEncodesEveryGroup : Obligations.HencEncodesEveryGroup := by
  rintro s a b p _ _ _ hs hf rfl rfl rfl
  obtain ⟨-, hslots, -⟩ := hs
  have hw (ha : a.toNat < s.cfg.nbuf) (hb : b.toNat < s.cfg.nbuf) (hp : 2 ≤ p.toNat) :
      (Instr.henc a b p).wellFormed s.cfg.nbuf = true :=
    wellFormed_of_slotsExist (List.forall_mem_cons.mpr ⟨ha, List.forall_mem_singleton.mpr hb⟩) (decide_eq_true hp) rfl
  refine ⟨Fields.ofWord_encode _, fun ha hb hp hcap => ?_, fun ha hb hp hcap => ?_,
    exec_faultsAs_of_illegalCodecOperands hf rfl rfl⟩
  · obtain ⟨t, ht, hbuf, hframe⟩ := exec_writesSlot (fun _ => rfl) hf (hw ha hb hp) hslots ha (if_neg hcap.not_gt)
    refine ⟨t, ht, ?_, fun g hg => ?_, hframe⟩
    · rw [State.len, hbuf]
      exact hammingEncode_length p.toNat (s.buf b)
    · rw [hbuf]
      exact slice_hammingEncode hp hg
  · exact exec_faultsAs_of_error (fun _ => rfl) hf (hw ha hb hp) .capacityOverflow (if_pos hcap)

/-- Settles O52: an unconditional write of the decoded sequence, whose groups `slice_hammingDecode` gives. -/
theorem hdecDecodesEveryWholeBlock : Obligations.HdecDecodesEveryWholeBlock := by
  rintro s a b p _ _ _ hs hf rfl rfl rfl
  obtain ⟨-, hslots, -⟩ := hs
  refine ⟨Fields.ofWord_encode _, fun ha hb hp => ?_, exec_faultsAs_of_illegalCodecOperands hf rfl rfl⟩
  have hw : (Instr.hdec a b p).wellFormed s.cfg.nbuf = true :=
    wellFormed_of_slotsExist (List.forall_mem_cons.mpr ⟨ha, List.forall_mem_singleton.mpr hb⟩) (decide_eq_true hp) rfl
  obtain ⟨t, ht, hbuf, hframe⟩ := exec_writesSlot (fun _ => rfl) hf hw hslots ha rfl
  refine ⟨t, ht, ?_, fun g hg => ?_, hframe⟩
  · rw [State.len, hbuf]
    exact hammingDecode_length p.toNat (s.buf b)
  · rw [hbuf]
    exact slice_hammingDecode hg

/-- Settles O53: the guard stands before the result, and a syndrome is below `2^p`, so RES holds it whole. -/
theorem hsynReturnsTheBlockSyndrome : Obligations.HsynReturnsTheBlockSyndrome := by
  rintro s a p k _ hs hf rfl
  have hw (ha : a.toNat < s.cfg.nbuf) (hp : 2 ≤ p.toNat) : (Instr.hsyn a p k).wellFormed s.cfg.nbuf = true :=
    wellFormed_of_slotExists rfl ha (decide_eq_true hp) rfl
  refine ⟨Fields.ofWord_encode _, fun ha hp hk => ?_, fun ha hp hk => ?_, fun hillegal => ?_⟩
  · have hpow : 2 ^ p.toNat ≤ 2 ^ 32 := Nat.pow_le_pow_right (by decide) p.isLt.le
    exact exec_returns (fun _ => rfl) hf (hw ha hp) ((check_lt _ _).trans_le hpow) (if_neg hk.not_gt)
  · exact exec_faultsAs_of_error (fun _ => rfl) hf (hw ha hp) .boundsError (if_pos hk)
  · rcases hillegal with ha | hp
    · exact exec_faultsAs_of_noSuchSlot hf (List.mem_singleton_self a) ha
    · exact exec_faultsAs_of_illFormed hf (wellFormed_eq_false_of_paramIllegal (decide_eq_false hp.not_ge))

end Sys2Proof.Machine
end

section
/-! SUPPORT. The statements about exceptions (60_exceptions.md), and for them: a word the decoder rejects, what a word raises, the
faulted block's discarding, and the exceptions each command's effect can raise (R300 to R313). -/

namespace Sys2Proof.Machine

/-! ## Words the decoder rejects -/

/-- A word that is accepted as no command raises IllegalCommand, cause 1, with its own bits in the record (R301, R310). -/
theorem submit_faultsAs_of_not_accepted {w : Cmd} {s : State} (hf : s.fault = false) (h : ∀ i, decode s.cfg.nbuf w ≠ .ok i) :
    FaultsAs 1 w s (submit w s) := by
  rcases hd : decode s.cfg.nbuf w with e | i
  · rw [submit_error hd, unlessFaulted_live hf]
    exact faultsAs_raise .illegalCommand w s
  · exact absurd hd (h i)

/-- The word of a well-formed command is executed as that command. -/
theorem submit_encode {i : Instr} {s : State} (hw : i.wellFormed s.cfg.nbuf = true) : submit (encode i) s = exec i s :=
  submit_ok (decode_eq_ok_iff.mpr ⟨rfl, hw⟩)

/-- Settles O7: the decoder accepts the words of well-formed commands alone, and check 7 is the first test of INEXT and IPREV. -/
theorem illegalWordsRaiseIllegalCommand : Obligations.IllegalWordsRaiseIllegalCommand := by
  intro s hf
  refine ⟨fun w hw => ?_, fun i hi => ?_, fun hitv => ⟨?_, ?_⟩⟩
  · refine submit_faultsAs_of_not_accepted hf fun i hd => hw ?_
    exact (matchesTable_iff w).mpr ⟨i, (decode_eq_ok_iff.mp hd).1⟩
  · refine submit_faultsAs_of_not_accepted hf fun j hd => ?_
    obtain ⟨henc, hj⟩ := decode_eq_ok_iff.mp hd
    obtain rfl : j = i := encode_injective henc
    exact absurd hj (ne_true_of_eq_false hi)
  all_goals
    rw [submit_encode rfl]
    exact exec_faultsAs_of_error (fun _ => rfl) hf rfl .illegalCommand (if_pos hitv)

/-! ## Fault entry -/

/-- A command that sets FAULT raised an exception. -/
theorem exec_eq_raise {i : Instr} {s t : State} (hf : s.fault = false) (h : exec i s = .next t) (ht : t.fault = true) :
    ∃ x, t = s.raise x (encode i) := by
  obtain ⟨hf', -⟩ | ⟨-, hraise⟩ | ⟨-, u, hu, rfl⟩ := exec_cases h
  · exact absurd hf' (ne_true_of_eq_false hf)
  · exact hraise
  · exact absurd ht (ne_true_of_eq_false (hu.fault_eq.trans hf))

/-- A submitted word that sets FAULT raised an exception, and the record holds that word whether it was rejected or executed. -/
theorem submit_eq_raise {w : Cmd} {s t : State} (hf : s.fault = false) (h : submit w s = .next t) (ht : t.fault = true) :
    ∃ x, t = s.raise x w := by
  rcases hd : decode s.cfg.nbuf w with e | i
  · rw [submit_error hd, unlessFaulted_live hf] at h
    cases h; exact ⟨.illegalCommand, rfl⟩
  · obtain ⟨rfl, -⟩ := decode_eq_ok_iff.mp hd
    exact exec_eq_raise hf ((submit_ok hd).symm.trans h) ht

/-- Settles O9: what a word raises is fault entry with one of the codes 1 to 5. -/
theorem faultEntryChangesOnlyTheFaultRecord : Obligations.FaultEntryChangesOnlyTheFaultRecord := by
  intro w s t hf h ht
  obtain ⟨x, rfl⟩ := submit_eq_raise hf h ht
  obtain ⟨hlo, hhi⟩ := x.code_mem_range
  exact ⟨x.code, hlo, hhi, h ▸ faultsAs_raise x w s⟩

/-! ## The faulted block -/

/-- On the faulted block every submitted word is discarded (R311). -/
theorem submit_faulted {s : State} (hf : s.fault = true) (w : Cmd) : submit w s = .next s := by
  rcases hd : decode s.cfg.nbuf w with e | i
  · exact (submit_error hd).trans (unlessFaulted_faulted hf _)
  · obtain ⟨eff, hexec, -⟩ := exec_eq_command i
    rw [submit_ok hd, hexec, command_faulted hf]

/-- A host access to BMEM that goes ahead gives the state it was to give. -/
theorem eq_of_withinBmem_eq_next {s u t : State} {a : Nat} (h : withinBmem s a u = .next t) : t = u := by
  obtain ⟨-, hw⟩ | ⟨-, hw⟩ := withinBmem_cases s a u
  · cases hw.symm.trans h; rfl
  · cases hw.symm.trans h

/-- Of the host's interactions only RESET changes the fault record of the faulted block (R311, R313). -/
theorem hostTurn_keeps_faultRecord {e : HostEvent} {s t : State} (hf : s.fault = true) (he : e ≠ .reset)
    (h : hostTurn e s = .next t) :
    t.fault = true ∧ t.cause = s.cause ∧ t.errIdx = s.errIdx ∧ t.errCmdLo = s.errCmdLo ∧ t.errCmdHi = s.errCmdHi := by
  cases e with
  | submit w =>
    cases (submit_faulted (s := { s with reply := .completion }) hf w).symm.trans h
    exact ⟨hf, rfl, rfl, rfl, rfl⟩
  | readReg n => cases h; exact ⟨hf, rfl, rfl, rfl, rfl⟩
  | writeReg n v => cases h; exact ⟨hf, rfl, rfl, rfl, rfl⟩
  | bmemRead a => cases eq_of_withinBmem_eq_next h; exact ⟨hf, rfl, rfl, rfl, rfl⟩
  | bmemWrite a v => cases eq_of_withinBmem_eq_next h; exact ⟨hf, rfl, rfl, rfl, rfl⟩
  | reset => exact absurd rfl he

/-- Settles O8, interaction by interaction. -/
theorem faultedBlockDiscardsCommands : Obligations.FaultedBlockDiscardsCommands := by
  intro s rest hf
  refine ⟨fun w h => ?_, fun n h => ?_, fun a h ha => ?_, fun a v h ha => ?_, fun e t h he ht => ?_, fun h => ?_⟩
  · exact (step_of_inputs h).trans (submit_faulted (s := { s with inputs := rest, reply := .completion }) hf w)
  · exact step_of_inputs h
  · exact (step_of_inputs h).trans (withinBmem_of_lt ha _)
  · exact ⟨_, (step_of_inputs h).trans (withinBmem_of_lt ha _), (s.memRead_memWrite a a v).trans (if_pos rfl)⟩
  · exact hostTurn_keeps_faultRecord (s := { s with inputs := rest }) hf he ((step_of_inputs h).symm.trans ht)
  · exact ⟨_, step_of_inputs h, rfl⟩

/-! ## Which exceptions a command raises -/

/-- The exceptions the effect of a command can raise once its operands pass checks 4 to 6 of R78: those R308 lists for it, and
IllegalCommand for INEXT and IPREV, whose check 7 reads the iterator. -/
def MayRaise (i : Instr) (x : Exc) : Prop :=
  x ∈ otherExceptions i ∨ ((i = .inext ∨ i = .iprev) ∧ x = .illegalCommand)

/-- What an effect gives is an exception of the command, or a state with FAULT as before. -/
inductive RaisesListed (i : Instr) (s : State) : Except Exc State → Prop
  | error {x : Exc} (hx : MayRaise i x) : RaisesListed i s (.error x)
  | ok {u : State} (hu : u.fault = s.fault) : RaisesListed i s (.ok u)

theorem RaisesListed.ite {i : Instr} {s : State} {c : Prop} [Decidable c] {e e' : Except Exc State}
    (h : RaisesListed i s e) (h' : RaisesListed i s e') : RaisesListed i s (if c then e else e') := by
  split
  · exact h
  · exact h'

/-- A guarded effect: the guard's exception is one of the command's. -/
theorem RaisesListed.guard {i : Instr} {s : State} {c : Prop} [Decidable c] {x : Exc} {e : Except Exc State}
    (hx : MayRaise i x) (h : RaisesListed i s e) : RaisesListed i s (if c then .error x else e) :=
  .ite (.error hx) h

/-- A lane-wise operation raises LengthMismatch alone (R170 to R172). -/
theorem RaisesListed.laneWise {i : Instr} (f : Bool → Bool → Bool) (a b : SlotField) (s : State)
    (hx : MayRaise i .lengthMismatch) : RaisesListed i s (laneWise f a b s) :=
  .guard hx (.ok rfl)

/-- Every command's effect raises only the exceptions R308 lists for it, and INEXT and IPREV also IllegalCommand. -/
theorem exec_raisesListed : ∀ i : Instr, ∃ eff : State → Except Exc State, (∀ s, exec i s = command i s eff) ∧
    ∀ s, RaisesListed i s (eff s)
  | .new _ | .clone _ _ | .len _ | .trunc _ _ | .all _ | .none _ | .any _ | .iter _ | .hdec _ _ _ =>
    ⟨_, fun _ => rfl, fun _ => .ok rfl⟩
  | .wcap _ _ | .fill _ _ _ | .tob _ | .get _ _ | .set _ _ _ | .push _ _ | .append _ _ | .split _ _ _ | .grow _ _ _
  | .henc _ _ _ | .hsyn _ _ _ =>
    ⟨_, fun _ => rfl, fun _ => .guard (.inl (.head _)) (.ok rfl)⟩
  | .fromb _ _ =>
    ⟨_, fun _ => rfl, fun _ => .guard (.inl (.head _)) (.guard (.inl (.tail _ (.head _))) (.ok rfl))⟩
  | .pop _ => ⟨_, fun _ => rfl, fun _ => .ite (.ok rfl) (.ok rfl)⟩
  | .inext => ⟨_, fun _ => rfl, fun _ => .guard (.inr ⟨.inl rfl, rfl⟩) (.ite (.ok rfl) (.ok rfl))⟩
  | .iprev => ⟨_, fun _ => rfl, fun _ => .guard (.inr ⟨.inr rfl, rfl⟩) (.ite (.ok rfl) (.ok rfl))⟩
  | .union a b | .inter a b | .diff a b => ⟨_, fun _ => rfl, fun s => .laneWise _ a b s (.inl (.head _))⟩

/-- The cause of a fault: IllegalCommand for operands that fail checks 4 to 6, else one of the command's exceptions. -/
theorem exec_cause_cases {i : Instr} {s t : State} (hf : s.fault = false) (h : exec i s = .next t) (ht : t.fault = true) :
    (i.wellFormed s.cfg.nbuf = false ∧ t.cause = Exc.illegalCommand.code) ∨ ∃ x, MayRaise i x ∧ t.cause = x.code := by
  obtain ⟨eff, hexec, heff⟩ := exec_raisesListed i
  rw [hexec] at h
  obtain ⟨hf', -⟩ | ⟨-, hw, rfl⟩ | ⟨-, -, x, he, rfl⟩ | ⟨-, -, u, he, rfl⟩ := command_cases h
  · exact absurd hf' (ne_true_of_eq_false hf)
  · exact .inl ⟨hw, rfl⟩
  · cases he ▸ heff s with
    | error hx => exact .inr ⟨x, hx, rfl⟩
  · cases he ▸ heff s with
    | ok hu => exact absurd ht (ne_true_of_eq_false (hu.trans hf))

/-- Code 1 is that of IllegalCommand alone (R300). -/
theorem Exc.eq_illegalCommand_of_code {x : Exc} (h : x.code = 1) : x = .illegalCommand := by
  cases x
  · rfl
  all_goals exact absurd h (by decide)

/-- R308 lists the exceptions besides IllegalCommand. -/
theorem illegalCommand_notMem_otherExceptions (i : Instr) : Exc.illegalCommand ∉ otherExceptions i := by
  cases i <;> simp [otherExceptions]

/-- Settles O10: the listed exceptions have other codes than 1, and with legal operands only check 7 raises IllegalCommand. -/
theorem commandsRaiseOnlyTheirExceptions : Obligations.CommandsRaiseOnlyTheirExceptions := by
  intro i s t hf h ht
  obtain ⟨hw, hc⟩ | ⟨x, hx | ⟨hi, rfl⟩, hc⟩ := exec_cause_cases hf h ht
  · exact ⟨.inl hc, fun hw' => absurd hw' (ne_true_of_eq_false hw)⟩
  · refine ⟨.inr ⟨x, hx, hc⟩, fun _ _ _ hone => ?_⟩
    obtain rfl : x = .illegalCommand := Exc.eq_illegalCommand_of_code (hc.symm.trans hone)
    exact illegalCommand_notMem_otherExceptions i hx
  · exact ⟨.inl hc, fun _ hnext hprev => absurd hi (not_or.mpr ⟨hnext, hprev⟩)⟩

end Sys2Proof.Machine
end

section
/-! SUPPORT. The statements about reset and what a step or a command answers (70_reset_and_hazards.md R350 to R355), and for them:
what the host reads after the reset input. -/

namespace Sys2Proof.Machine

/-! ## What a step and a command answer -/

/-- Settles O6: the step is the interaction that stands first, and SUBMIT of an accepted word executes its command. -/
theorem stepExecutesTheSubmittedCommand : Obligations.StepExecutesTheSubmittedCommand := by
  intro s w rest i hin hdec
  calc step s = submit w { s with inputs := rest, reply := .completion } := step_of_inputs hin
    _ = exec i { s with inputs := rest, reply := .completion } := submit_ok hdec

/-- Settles O11: the frame every command runs in discards it on the faulted block and settles its effect on a live one. -/
theorem everyCommandAnswersANextState : Obligations.EveryCommandAnswersANextState := by
  intro i s
  obtain ⟨eff, hexec, -⟩ := exec_eq_command i
  rw [hexec]
  cases hf : s.fault with
  | false => exact ⟨_, command_live hf eff⟩
  | true => exact ⟨s, command_faulted hf eff⟩

/-! ## Reset -/

/-- STATUS reads 0 after the reset input (R36). -/
theorem State.resetBlock_status (s : State) : s.resetBlock.status = 0 := State.afterReset_status s.cfg (s.bmemEpoch + 1)

/-- After the reset input every byte of BMEM is the next free draw (R36). -/
theorem State.resetBlock_memRead (s : State) (a : Nat) : s.resetBlock.memRead a = Config.bmemDraw (s.bmemEpoch + 1) a := rfl

/-- Settles O16: the step is the reset input, whose state has the values of R36 field by field and empty slots, whose storage words
are therefore 0. -/
theorem resetEventRestoresTheResetValues : Obligations.ResetEventRestoresTheResetValues := by
  intro s rest hin
  have hbuf := State.resetBlock_buf { s with inputs := rest }
  refine ⟨_, step_of_inputs hin, rfl, rfl, List.length_replicate, hbuf, fun a k => ?_, rfl, State.resetBlock_status _, ?_⟩
  · exact (congrArg (storageWord · k) (hbuf a)).trans (storageWord_nil k)
  · exact ⟨rfl, rfl, rfl, rfl, rfl, rfl, rfl, rfl, rfl, rfl, rfl, State.resetBlock_memRead { s with inputs := rest }⟩

end Sys2Proof.Machine
end
